-- ==== Sys2Proof/Word.lean ====
section
/-! DEFINITION. Word.lean: the two word types of the hardware (spec/00_scope.md R7, R9). All values are unsigned. -/

namespace Sys2Proof

/-- An 8-bit value: a general register, a timer, one memory byte (R7). -/
abbrev Byte := BitVec 8

/-- A 16-bit value: an instruction word, `pc`, `I`, one stack entry (R7). -/
abbrev Word := BitVec 16

end Sys2Proof
end

