-- ==== Sys2Proof/Config.lean ====
section
/-! DEFINITION. Config.lean: what is fixed for the machine (spec/00_scope.md R7, R8; spec/20_memory.md R57, R58) and the
one free value, the random byte (spec/42_immediate.md R113). -/

namespace Sys2Proof

/-- `MEM_SIZE` (R7): memory addresses are 0..4095. -/
def Config.memSize : Nat := 4096

/-- `W` (R7): the display's width in pixels. -/
def Config.width : Nat := 64

/-- `H` (R7): the display's height in pixels. -/
def Config.height : Nat := 32

/-- `STACK_DEPTH` (R7). -/
def Config.stackDepth : Nat := 16

/-- `NKEYS` (R7). -/
def Config.nKeys : Nat := 16

/-- `PROGRAM_BASE` (R8, decision D4): where the image starts and where `pc` starts. UNVERIFIED: general knowledge in the spec; unsafe (log 6). -/
def Config.programBase : Nat := 0x200

/-- `GLYPH_BASE` (R8). -/
def Config.glyphBase : Nat := 0

/-- `GLYPH_HEIGHT` (R8): bytes per glyph. -/
def Config.glyphHeight : Nat := 5

/-- The digits 0 to 7 of the glyph table (R58). UNVERIFIED: general knowledge in the spec (decision D7); unsafe (log 7). -/
def Config.glyphsLow : List (List Byte) :=
  [[0xF0, 0x90, 0x90, 0x90, 0xF0], [0x20, 0x60, 0x20, 0x20, 0x70],
   [0xF0, 0x10, 0xF0, 0x80, 0xF0], [0xF0, 0x10, 0xF0, 0x10, 0xF0],
   [0x90, 0x90, 0xF0, 0x10, 0x10], [0xF0, 0x80, 0xF0, 0x10, 0xF0],
   [0xF0, 0x80, 0xF0, 0x90, 0xF0], [0xF0, 0x10, 0x20, 0x40, 0x40]]

/-- The digits 8 to F of the glyph table (R58). UNVERIFIED: general knowledge in the spec (decision D7); unsafe (log 7). -/
def Config.glyphsHigh : List (List Byte) :=
  [[0xF0, 0x90, 0xF0, 0x90, 0xF0], [0xF0, 0x90, 0xF0, 0x10, 0xF0],
   [0xF0, 0x90, 0xF0, 0x90, 0x90], [0xE0, 0x90, 0xE0, 0x90, 0xE0],
   [0xF0, 0x80, 0x80, 0x80, 0xF0], [0xE0, 0x90, 0x90, 0x90, 0xE0],
   [0xF0, 0x80, 0xF0, 0x80, 0xF0], [0xF0, 0x80, 0xF0, 0x80, 0x80]]

/-- `GLYPHS` (R8, R58): the 80 bytes at `GLYPH_BASE` after reset, sixteen glyphs of five bytes. -/
def Config.glyphs : List Byte := (Config.glyphsLow ++ Config.glyphsHigh).flatten

/-- The capacity for a program image (R59): `MEM_SIZE` - `PROGRAM_BASE`. -/
def Config.imageCapacity : Nat := Config.memSize - Config.programBase

/-- The random bytes, one per executed `RND` (R113, decision D17): a FREE VALUE under no law. No proof can see a value of it,
so a claim holds for every byte at every draw. Safe (log 4). -/
opaque Config.rndByte : Nat → Byte

end Sys2Proof
end

