-- ==== Sys2Proof/Syntax.lean ====
section
/-! DEFINITION. Syntax.lean: the 34 instructions of spec/30_encoding.md R76, one constructor per row of
spec/opcode_table.json, in the table's order. -/

namespace Sys2Proof

/-- One instruction with its operands (R71, R73). A register operand is an index 0..15, `nn` a byte, `nnn` a 12-bit
address, `n` the number of sprite rows (`Instr.wellFormed` bounds it by 15). `shr` and `shl` carry the `y` field, which
is decoded and not used (R78). -/
inductive Instr where
  /-- `00E0`: clear display (R131). -/
  | cls
  /-- `00EE`: return from subroutine (R100). -/
  | ret
  /-- `1nnn`: jump (R101). -/
  | jp (nnn : BitVec 12)
  /-- `2nnn`: call (R102). -/
  | call (nnn : BitVec 12)
  /-- `3xnn`: skip if V[x] = nn (R103). -/
  | seImm (x : Fin 16) (nn : Byte)
  /-- `4xnn`: skip if V[x] ≠ nn (R104). -/
  | sneImm (x : Fin 16) (nn : Byte)
  /-- `5xy0`: skip if V[x] = V[y] (R105). -/
  | seReg (x y : Fin 16)
  /-- `6xnn`: load immediate (R110). -/
  | ldImm (x : Fin 16) (nn : Byte)
  /-- `7xnn`: add immediate, no flag (R111). -/
  | addImm (x : Fin 16) (nn : Byte)
  /-- `8xy0`: assign (R121). -/
  | ldReg (x y : Fin 16)
  /-- `8xy1`: OR (R122). -/
  | orReg (x y : Fin 16)
  /-- `8xy2`: AND (R123). -/
  | andReg (x y : Fin 16)
  /-- `8xy3`: XOR (R124). -/
  | xorReg (x y : Fin 16)
  /-- `8xy4`: add with carry out into VF (R125). -/
  | addReg (x y : Fin 16)
  /-- `8xy5`: subtract (R126). -/
  | subReg (x y : Fin 16)
  /-- `8xy6`: shift right by one (R127); `y` unused. -/
  | shr (x y : Fin 16)
  /-- `8xy7`: reverse subtract (R128). -/
  | subnReg (x y : Fin 16)
  /-- `8xyE`: shift left by one (R129); `y` unused. -/
  | shl (x y : Fin 16)
  /-- `9xy0`: skip if V[x] ≠ V[y] (R106). -/
  | sneReg (x y : Fin 16)
  /-- `Annn`: set the index register (R112). -/
  | ldI (nnn : BitVec 12)
  /-- `Bnnn`: offset jump (R107). -/
  | jpV0 (nnn : BitVec 12)
  /-- `Cxnn`: random byte AND nn (R113). -/
  | rnd (x : Fin 16) (nn : Byte)
  /-- `Dxyn`: draw a sprite of `n` rows (R132). -/
  | drw (x y : Fin 16) (n : Nat)
  /-- `Ex9E`: skip if key pressed (R141). -/
  | skp (x : Fin 16)
  /-- `ExA1`: skip if key not pressed (R142). -/
  | sknp (x : Fin 16)
  /-- `Fx07`: V[x] = delay timer (R143). -/
  | ldVxDt (x : Fin 16)
  /-- `Fx0A`: block until key press (R146). -/
  | ldVxK (x : Fin 16)
  /-- `Fx15`: delay timer = V[x] (R144). -/
  | ldDtVx (x : Fin 16)
  /-- `Fx18`: sound timer = V[x] (R145). -/
  | ldStVx (x : Fin 16)
  /-- `Fx1E`: I += V[x], no flag (R150). -/
  | addI (x : Fin 16)
  /-- `Fx29`: I = address of the glyph for V[x] (R151). -/
  | ldF (x : Fin 16)
  /-- `Fx33`: store the decimal digits of V[x] (R152). -/
  | ldB (x : Fin 16)
  /-- `Fx55`: register dump, V0..Vx (R153). -/
  | dumpRegs (x : Fin 16)
  /-- `Fx65`: register load, V0..Vx (R154). -/
  | loadRegs (x : Fin 16)
  deriving DecidableEq, Repr

end Sys2Proof
end

