-- ==== Sys2Proof/WellFormed.lean ====
section
/-! DEFINITION. WellFormed.lean: the checks on an instruction (spec/30_encoding.md R73) and on a program image
(spec/70_reset_and_hazards.md R195, R196). Register indices, `nn` and `nnn` are bounded by their types, so the row count
of `DRW` is the one operand with a check. -/

namespace Sys2Proof

/-- The operands fit the word: `n` in `DRW` is "an unsigned count of rows 0..15" (R73). -/
def Instr.wellFormed : Instr → Bool
  | .drw _ _ n => decide (n ≤ 15)
  | .cls => true | .ret => true | .jp _ => true | .call _ => true
  | .seImm _ _ => true | .sneImm _ _ => true | .seReg _ _ => true | .ldImm _ _ => true
  | .addImm _ _ => true | .ldReg _ _ => true | .orReg _ _ => true | .andReg _ _ => true
  | .xorReg _ _ => true | .addReg _ _ => true | .subReg _ _ => true | .shr _ _ => true
  | .subnReg _ _ => true | .shl _ _ => true | .sneReg _ _ => true | .ldI _ => true
  | .jpV0 _ => true | .rnd _ _ => true | .skp _ => true | .sknp _ => true
  | .ldVxDt _ => true | .ldVxK _ => true | .ldDtVx _ => true | .ldStVx _ => true
  | .addI _ => true | .ldF _ => true | .ldB _ => true | .dumpRegs _ => true | .loadRegs _ => true

/-- An image that `load` accepts: `1 ≤ len ≤ 3584` bytes (R195); any other is rejected (R196). -/
def imageWellFormed (image : List Byte) : Bool :=
  decide (1 ≤ image.length) && decide (image.length ≤ Config.imageCapacity)

end Sys2Proof
end

