-- ==== Sys2Proof/Decode.lean ====
section
/-! DEFINITION. Decode.lean: the fields of an instruction word (spec/30_encoding.md R71), the decoder (R74, R75, R77), the
encoder (R72, R76) and the opcode table's mask and match pairs (R75). The numbers are the spec's, most of them from general
knowledge (decision D2; log 2). -/

namespace Sys2Proof

/-- The group g = w[15:12] (R71). -/
def fieldG (w : Word) : BitVec 4 := w.extractLsb' 12 4

/-- The register index x = w[11:8] (R71). -/
def fieldX (w : Word) : Fin 16 := ⟨(w.extractLsb' 8 4).toNat, BitVec.isLt _⟩

/-- The register index y = w[7:4] (R71). -/
def fieldY (w : Word) : Fin 16 := ⟨(w.extractLsb' 4 4).toNat, BitVec.isLt _⟩

/-- The immediate nibble n = w[3:0] (R71). -/
def fieldN (w : Word) : BitVec 4 := w.extractLsb' 0 4

/-- The immediate byte nn = w[7:0] (R71). -/
def fieldNN (w : Word) : Byte := w.extractLsb' 0 8

/-- The immediate address nnn = w[11:0] (R71). -/
def fieldNNN (w : Word) : BitVec 12 := w.extractLsb' 0 12

/-- Group 0 (R75): all sixteen bits of `CLS` and `RET` are fixed. -/
def decodeGroup0 (w : Word) : Option Instr :=
  if w = 0x00E0#16 then some .cls
  else if w = 0x00EE#16 then some .ret
  else none

/-- Group 5 (R75): subcode n = 0 only. -/
def decodeGroup5 (w : Word) : Option Instr :=
  if fieldN w = 0x0#4 then some (.seReg (fieldX w) (fieldY w)) else none

/-- Group 8 (R75): the register-register ALU group, subcode n. -/
def decodeGroup8 (w : Word) : Option Instr :=
  if fieldN w = 0x0#4 then some (.ldReg (fieldX w) (fieldY w))
  else if fieldN w = 0x1#4 then some (.orReg (fieldX w) (fieldY w))
  else if fieldN w = 0x2#4 then some (.andReg (fieldX w) (fieldY w))
  else if fieldN w = 0x3#4 then some (.xorReg (fieldX w) (fieldY w))
  else if fieldN w = 0x4#4 then some (.addReg (fieldX w) (fieldY w))
  else if fieldN w = 0x5#4 then some (.subReg (fieldX w) (fieldY w))
  else if fieldN w = 0x6#4 then some (.shr (fieldX w) (fieldY w))
  else if fieldN w = 0x7#4 then some (.subnReg (fieldX w) (fieldY w))
  else if fieldN w = 0xE#4 then some (.shl (fieldX w) (fieldY w))
  else none

/-- Group 9 (R75): subcode n = 0 only. -/
def decodeGroup9 (w : Word) : Option Instr :=
  if fieldN w = 0x0#4 then some (.sneReg (fieldX w) (fieldY w)) else none

/-- Group E (R75): the keypad skips, subcode nn. -/
def decodeGroupE (w : Word) : Option Instr :=
  if fieldNN w = 0x9E#8 then some (.skp (fieldX w))
  else if fieldNN w = 0xA1#8 then some (.sknp (fieldX w))
  else none

/-- Group F (R75): subcode nn. -/
def decodeGroupF (w : Word) : Option Instr :=
  if fieldNN w = 0x07#8 then some (.ldVxDt (fieldX w))
  else if fieldNN w = 0x0A#8 then some (.ldVxK (fieldX w))
  else if fieldNN w = 0x15#8 then some (.ldDtVx (fieldX w))
  else if fieldNN w = 0x18#8 then some (.ldStVx (fieldX w))
  else if fieldNN w = 0x1E#8 then some (.addI (fieldX w))
  else if fieldNN w = 0x29#8 then some (.ldF (fieldX w))
  else if fieldNN w = 0x33#8 then some (.ldB (fieldX w))
  else if fieldNN w = 0x55#8 then some (.dumpRegs (fieldX w))
  else if fieldNN w = 0x65#8 then some (.loadRegs (fieldX w))
  else none

/-- Decoding a word (R74): the group selects the case; `none` is an unknown instruction (R77). -/
def decodeWord (w : Word) : Option Instr :=
  match (fieldG w).toNat with
  | 0x0 => decodeGroup0 w
  | 0x1 => some (.jp (fieldNNN w))
  | 0x2 => some (.call (fieldNNN w))
  | 0x3 => some (.seImm (fieldX w) (fieldNN w))
  | 0x4 => some (.sneImm (fieldX w) (fieldNN w))
  | 0x5 => decodeGroup5 w
  | 0x6 => some (.ldImm (fieldX w) (fieldNN w))
  | 0x7 => some (.addImm (fieldX w) (fieldNN w))
  | 0x8 => decodeGroup8 w
  | 0x9 => decodeGroup9 w
  | 0xA => some (.ldI (fieldNNN w))
  | 0xB => some (.jpV0 (fieldNNN w))
  | 0xC => some (.rnd (fieldX w) (fieldNN w))
  | 0xD => some (.drw (fieldX w) (fieldY w) (fieldN w).toNat)
  | 0xE => decodeGroupE w
  | 0xF => decodeGroupF w
  | _ => none  -- no 4-bit value is above 15

/-- Why bytes do not decode: fewer than two of them, or a word that no pattern of R75 matches (R77). -/
inductive DecodeError where
  | truncated
  | unknown (w : Word)
  deriving DecidableEq, Repr

/-- The word of two consecutive bytes, high byte at the lower address (spec/20_memory.md R53, R54). -/
def wordOfBytes (hi lo : Byte) : Word := hi ++ lo

/-- Decoding bytes: every instruction is exactly two bytes (R70); the rest is handed back. -/
def decode : List Byte → Except DecodeError (Instr × List Byte)
  | hi :: lo :: rest =>
    match decodeWord (wordOfBytes hi lo) with
    | some i => .ok (i, rest)
    | none => .error (.unknown (wordOfBytes hi lo))
  | [_] => .error .truncated
  | [] => .error .truncated

/-- Format `A` (R72): group, then a 12-bit address. -/
def wordA (g : BitVec 4) (nnn : BitVec 12) : Word := g ++ nnn

/-- Format `XB` (R72), also `XS` with a fixed low byte: group, x, byte. -/
def wordXB (g : BitVec 4) (x : Fin 16) (nn : Byte) : Word := g ++ (BitVec.ofNat 4 x ++ nn : BitVec 12)

/-- Formats `XY` and `XYN` (R72): group, x, y, nibble. -/
def wordXYN (g : BitVec 4) (x y : Fin 16) (n : BitVec 4) : Word :=
  g ++ (BitVec.ofNat 4 x ++ (BitVec.ofNat 4 y ++ n : BitVec 8) : BitVec 12)

/-- The word of an instruction, from the patterns of R76. -/
def encodeWord : Instr → Word
  | .cls => 0x00E0#16
  | .ret => 0x00EE#16
  | .jp nnn => wordA 0x1#4 nnn
  | .call nnn => wordA 0x2#4 nnn
  | .seImm x nn => wordXB 0x3#4 x nn
  | .sneImm x nn => wordXB 0x4#4 x nn
  | .seReg x y => wordXYN 0x5#4 x y 0x0#4
  | .ldImm x nn => wordXB 0x6#4 x nn
  | .addImm x nn => wordXB 0x7#4 x nn
  | .ldReg x y => wordXYN 0x8#4 x y 0x0#4
  | .orReg x y => wordXYN 0x8#4 x y 0x1#4
  | .andReg x y => wordXYN 0x8#4 x y 0x2#4
  | .xorReg x y => wordXYN 0x8#4 x y 0x3#4
  | .addReg x y => wordXYN 0x8#4 x y 0x4#4
  | .subReg x y => wordXYN 0x8#4 x y 0x5#4
  | .shr x y => wordXYN 0x8#4 x y 0x6#4
  | .subnReg x y => wordXYN 0x8#4 x y 0x7#4
  | .shl x y => wordXYN 0x8#4 x y 0xE#4
  | .sneReg x y => wordXYN 0x9#4 x y 0x0#4
  | .ldI nnn => wordA 0xA#4 nnn
  | .jpV0 nnn => wordA 0xB#4 nnn
  | .rnd x nn => wordXB 0xC#4 x nn
  | .drw x y n => wordXYN 0xD#4 x y (BitVec.ofNat 4 n)
  | .skp x => wordXB 0xE#4 x 0x9E#8
  | .sknp x => wordXB 0xE#4 x 0xA1#8
  | .ldVxDt x => wordXB 0xF#4 x 0x07#8
  | .ldVxK x => wordXB 0xF#4 x 0x0A#8
  | .ldDtVx x => wordXB 0xF#4 x 0x15#8
  | .ldStVx x => wordXB 0xF#4 x 0x18#8
  | .addI x => wordXB 0xF#4 x 0x1E#8
  | .ldF x => wordXB 0xF#4 x 0x29#8
  | .ldB x => wordXB 0xF#4 x 0x33#8
  | .dumpRegs x => wordXB 0xF#4 x 0x55#8
  | .loadRegs x => wordXB 0xF#4 x 0x65#8

/-- The high byte of a word: it stands at the lower address (spec/20_memory.md R54). -/
def hiByte (w : Word) : Byte := w.extractLsb' 8 8

/-- The low byte of a word: it stands at the higher address (spec/20_memory.md R54). -/
def loByte (w : Word) : Byte := w.extractLsb' 0 8

/-- The two bytes of an instruction, high byte first (R70). -/
def encode (i : Instr) : List Byte := [hiByte (encodeWord i), loByte (encodeWord i)]

/-- One row of the opcode map (R75): a word w is the instruction when (w & mask) = match. -/
structure OpcodeRow where
  mask : Word
  pattern : Word
  deriving DecidableEq, Repr

/-- The row of each instruction, as spec/opcode_table.json gives its mask and match (R75). -/
def opcodeRow : Instr → OpcodeRow
  | .cls => ⟨0xFFFF, 0x00E0⟩
  | .ret => ⟨0xFFFF, 0x00EE⟩
  | .jp _ => ⟨0xF000, 0x1000⟩
  | .call _ => ⟨0xF000, 0x2000⟩
  | .seImm _ _ => ⟨0xF000, 0x3000⟩
  | .sneImm _ _ => ⟨0xF000, 0x4000⟩
  | .seReg _ _ => ⟨0xF00F, 0x5000⟩
  | .ldImm _ _ => ⟨0xF000, 0x6000⟩
  | .addImm _ _ => ⟨0xF000, 0x7000⟩
  | .ldReg _ _ => ⟨0xF00F, 0x8000⟩
  | .orReg _ _ => ⟨0xF00F, 0x8001⟩
  | .andReg _ _ => ⟨0xF00F, 0x8002⟩
  | .xorReg _ _ => ⟨0xF00F, 0x8003⟩
  | .addReg _ _ => ⟨0xF00F, 0x8004⟩
  | .subReg _ _ => ⟨0xF00F, 0x8005⟩
  | .shr _ _ => ⟨0xF00F, 0x8006⟩
  | .subnReg _ _ => ⟨0xF00F, 0x8007⟩
  | .shl _ _ => ⟨0xF00F, 0x800E⟩
  | .sneReg _ _ => ⟨0xF00F, 0x9000⟩
  | .ldI _ => ⟨0xF000, 0xA000⟩
  | .jpV0 _ => ⟨0xF000, 0xB000⟩
  | .rnd _ _ => ⟨0xF000, 0xC000⟩
  | .drw _ _ _ => ⟨0xF000, 0xD000⟩
  | .skp _ => ⟨0xF0FF, 0xE09E⟩
  | .sknp _ => ⟨0xF0FF, 0xE0A1⟩
  | .ldVxDt _ => ⟨0xF0FF, 0xF007⟩
  | .ldVxK _ => ⟨0xF0FF, 0xF00A⟩
  | .ldDtVx _ => ⟨0xF0FF, 0xF015⟩
  | .ldStVx _ => ⟨0xF0FF, 0xF018⟩
  | .addI _ => ⟨0xF0FF, 0xF01E⟩
  | .ldF _ => ⟨0xF0FF, 0xF029⟩
  | .ldB _ => ⟨0xF0FF, 0xF033⟩
  | .dumpRegs _ => ⟨0xF0FF, 0xF055⟩
  | .loadRegs _ => ⟨0xF0FF, 0xF065⟩

/-- One instruction of each row, in the table's order. -/
def opcodeWitnesses : List Instr :=
  [.cls, .ret, .jp 0, .call 0, .seImm 0 0, .sneImm 0 0, .seReg 0 0, .ldImm 0 0, .addImm 0 0]
  ++ [.ldReg 0 0, .orReg 0 0, .andReg 0 0, .xorReg 0 0, .addReg 0 0, .subReg 0 0, .shr 0 0, .subnReg 0 0, .shl 0 0]
  ++ [.sneReg 0 0, .ldI 0, .jpV0 0, .rnd 0 0, .drw 0 0 0, .skp 0, .sknp 0]
  ++ [.ldVxDt 0, .ldVxK 0, .ldDtVx 0, .ldStVx 0, .addI 0, .ldF 0, .ldB 0, .dumpRegs 0, .loadRegs 0]

/-- The whole opcode map (R75): 34 rows. -/
def opcodeRows : List OpcodeRow := opcodeWitnesses.map opcodeRow

/-- The instruction whose bits are `w`, numbered as spec/opcode_table.json numbers them. An instruction is one 16-bit word,
so `w` cut to `nbits` bits (the bits above are zero) is that word; it is laid out high byte first and given to `decode`. -/
def decodeTableWord (nbits w : Nat) : Option Instr :=
  let word : Word := BitVec.ofNat 16 (w % 2 ^ nbits)
  match decode [hiByte word, loByte word] with
  | .ok (i, _) => some i
  | .error _ => none

end Sys2Proof
end

