-- ==== Sys2Proof/Machine/State.lean ====
section
/-! DEFINITION. Machine/State.lean: the state of spec/10_state.md (R20 to R34), the report of a step (spec/40_step_cycle.md
R96), the stop reasons, and the state after reset. -/

namespace Sys2Proof.Machine

/-- The report value a step or a load returns (spec/60_exceptions.md R160), with its information value. -/
inductive Report where
  /-- Code 0: no condition. -/
  | none
  /-- Code 1: the fetch at `pc` failed (R161). -/
  | fetchOob (pc : Word)
  /-- Code 2: an access through `I` would pass address 4095 (R162). -/
  | addrOob (i : Word)
  /-- Code 3: the word is no instruction (R163). -/
  | unknownInstr (w : Word)
  /-- Code 4: a call with sixteen entries in use (R164). -/
  | stackOverflow
  /-- Code 5: a return with no entry in use (R165). -/
  | stackUnderflow
  /-- Code 6: a key index above 15 (R166). -/
  | keyOor (v : Byte)
  /-- Code 7: an empty or oversize image, raised by the load event only (R167). -/
  | loadRejected (len : Nat)
  deriving DecidableEq, Repr

/-- Reasons the machine stops. There are none: a condition is a report and the machine goes on ("the engine never
terminates itself mid-run", R97, R168). Nothing raises a fault. -/
inductive Fault where
  deriving DecidableEq, Repr

/-- Reasons the model gives no next state. -/
inductive Refusal where
  /-- Raised by a rejected arm of `exec` only, for an instruction that has no meaning yet: no arm is. Safe. -/
  | notModelled (mnemonic : String)
  /-- Raised by `launch` (Machine/Events.lean) only, when the load of the launch was rejected: "caller must not proceed to
  execution on failure" (spec/70_reset_and_hazards.md R196). No instruction raises it. Safe (log 21). -/
  | launchRejected (len : Nat)
  deriving DecidableEq, Repr

/-- The display buffer (R29): `fb[x][y]` is the pixel of column x and row y. -/
abbrev Framebuffer := Vector (Vector Bool 32) 64

/-- Main memory (R31): the bytes that differ from what an unlisted address reads as, addresses strictly rising. -/
abbrev Memory := List Host.Cell

/-- The whole state of the CORE (spec/10_state.md), and two fields of the model's own, `report` and `draws`. -/
structure State where
  /-- General registers V0..VF; V[15] is the flag register (R20, R21). -/
  v : Vector Byte 16
  /-- Index register (R25). -/
  i : Word
  /-- Program counter (R23). -/
  pc : Word
  /-- Call-stack entries (R26). -/
  stack : Vector Word 16
  /-- Stack pointer: the number of entries in use, 0..16 (R26). -/
  sp : Fin 17
  /-- Delay timer (R27). -/
  dt : Byte
  /-- Sound timer (R28). -/
  st : Byte
  /-- Display buffer (R29). -/
  fb : Framebuffer
  /-- Keypad latches (R30). -/
  keys : Vector Bool 16
  /-- Main memory (R31). -/
  mem : Memory
  /-- The model's own: what the last step or load returned as its report (R96). An output, which no instruction reads
  (R183; log 3). -/
  report : Report
  /-- The model's own: how many random bytes have been drawn, so that each executed `RND` takes a fresh free byte
  (R113; log 4). -/
  draws : Nat
  deriving DecidableEq, Repr

/-- The state after the `reset` event (R34, R190). UNVERIFIED where R34 rests on decisions D5 and D6 (log 5, log 6);
`report` and `draws` are the model's own, DESIGN CHOICE (log 3, log 4). -/
def State.reset : State where
  v := Vector.replicate 16 0
  i := 0
  pc := BitVec.ofNat 16 Config.programBase
  stack := Vector.replicate 16 0
  sp := 0
  dt := 0
  st := 0
  fb := Vector.replicate 64 (Vector.replicate 32 false)
  keys := Vector.replicate 16 false
  mem := []
  report := .none
  draws := 0

end Sys2Proof.Machine
end

