-- ==== Sys2Proof/Machine/Ops.lean ====
section
/-! DEFINITION. Machine/Ops.lean: the named operations over the registers, the program counter, the call stack, memory, the
display buffer and the keypad (spec/00_scope.md R10, R11; spec/20_memory.md), and raising a condition. -/

namespace Sys2Proof.Machine

/-- What a step answers. -/
abbrev Outcome := Host.Outcome State Fault Refusal

/-! ### Ending an instruction -/

/-- An instruction that raises nothing reports `NONE` (R11). -/
def complete (s : State) : Outcome := .next { s with report := .none }

/-- `raise <Condition>(info)` (R11, R168): the report is the condition and nothing else is written. This is the whole of the
hardware's exception entry: nothing is saved, no mode changes, control goes nowhere. There is no return from a condition
(R172). -/
def raise (c : Report) (s : State) : Outcome := .next { s with report := c }

/-- The numeric code of a condition (R160; UNVERIFIED, log 20). -/
def reportCode : Report → Nat
  | .none => 0
  | .fetchOob _ => 1
  | .addrOob _ => 2
  | .unknownInstr _ => 3
  | .stackOverflow => 4
  | .stackUnderflow => 5
  | .keyOor _ => 6
  | .loadRejected _ => 7

/-! ### Registers (R10, R20, R23, R25) -/

/-- `V[x]`. -/
def State.getV (s : State) (x : Fin 16) : Byte := s.v[x]

/-- `V[x] <- b`. No register is hardwired (R20). -/
def State.setV (s : State) (x : Fin 16) (b : Byte) : State := { s with v := s.v.set x b }

/-- `I <- a`. -/
def State.setI (s : State) (a : Word) : State := { s with i := a }

/-- `pc <- a`. No target is checked (R55, R108). -/
def State.setPc (s : State) (a : Word) : State := { s with pc := a }

/-- `DT <- b`. -/
def State.setDt (s : State) (b : Byte) : State := { s with dt := b }

/-- `ST <- b`. -/
def State.setSt (s : State) (b : Byte) : State := { s with st := b }

/-- `pc <- (pc + 2) mod 65536`: the fetch's advance (R91) and a taken skip (R103). -/
def State.advancePc (s : State) : State := s.setPc (s.pc + 2)

/-- `pc <- (pc - 2) mod 65536`: the rewind of `LD Vx,K` (R146). -/
def State.rewindPc (s : State) : State := s.setPc (s.pc - 2)

/-- Skip the next instruction when the condition holds (R108). -/
def State.skipIf (s : State) (c : Bool) : State := if c then s.advancePc else s

/-! ### The call stack (R26) -/

/-- Push: requires SP < 16; `Stack[SP] <- a; SP <- SP + 1`. `none` is the overflow. -/
def State.push (s : State) (a : Word) : Option State :=
  if h : s.sp.val < 16 then
    some { s with stack := s.stack.set s.sp.val a h, sp := ⟨s.sp.val + 1, Nat.succ_lt_succ h⟩ }
  else none

/-- Pop: requires SP > 0; `SP <- SP - 1; value = Stack[SP]`. `none` is the underflow. The entry keeps its value. -/
def State.pop (s : State) : Option (Word × State) :=
  if h : 0 < s.sp.val then
    some (s.stack[s.sp.val - 1]'(by have := s.sp.isLt; omega),
      { s with sp := ⟨s.sp.val - 1, by have := s.sp.isLt; omega⟩ })
  else none

/-! ### Memory (spec/20_memory.md) -/

/-- What an address that memory does not list reads as: the reset contents, the glyph table at `GLYPH_BASE` and zero
elsewhere (R34, R57, R58). -/
def memDefault (a : Nat) : Byte :=
  if Config.glyphBase ≤ a then (Config.glyphs[a - Config.glyphBase]?).getD 0 else 0

/-- `MemRead(a, 1)` (R52). Callers test the range first (R51). -/
def memRead : Memory → Nat → Byte
  | [], a => memDefault a
  | c :: rest, a => if c.1 = a then c.2 else memRead rest a

/-- Place a cell in address order. -/
def memInsert (a : Nat) (b : Byte) : Memory → Memory
  | [] => [(a, b)]
  | c :: rest => if a < c.1 then (a, b) :: c :: rest else c :: memInsert a b rest

/-- `MemWrite(a, 1, b)` (R52), keeping the canonical form: a byte equal to what the unlisted address reads as is not
listed. Callers test the range first (R51). -/
def memWrite (m : Memory) (a : Nat) (b : Byte) : Memory :=
  let rest := m.filter (fun c => c.1 != a)
  if b = memDefault a then rest else memInsert a b rest

/-- The canonical form of memory: addresses strictly rising, every one an address of the space (R51), and no cell equal to
what its address reads as unlisted. -/
abbrev Memory.wf (m : Memory) : Prop :=
  m.Pairwise (fun c d => c.1 < d.1) ∧ ∀ c ∈ m, c.1 < Config.memSize ∧ c.2 ≠ memDefault c.1

/-- The range test of an access of `count` bytes from `base`, on unbounded integers (R51, R60): count = 0 or
base + count - 1 <= 4095. -/
def rangeOk (base count : Nat) : Bool := count == 0 || decide (base + count ≤ Config.memSize)

/-- `count` single-byte reads at ascending addresses (R52). -/
def readBytes (m : Memory) (base count : Nat) : List Byte :=
  (List.range count).map (fun k => memRead m (base + k))

/-- Single-byte writes at ascending addresses (R52). -/
def writeBytes (m : Memory) (base : Nat) : List Byte → Memory
  | [] => m
  | b :: bs => writeBytes (memWrite m base b) (base + 1) bs

/-- The instruction fetch `MemRead(pc, 2)`, high byte first (R53, R54, R91): `none` when pc + 1 is above 4095. -/
def fetchWord (s : State) : Option Word :=
  if s.pc.toNat + 1 < Config.memSize then
    some (wordOfBytes (memRead s.mem s.pc.toNat) (memRead s.mem (s.pc.toNat + 1)))
  else none

/-- The word `w` stored where the next step fetches, high byte first. Where no word can be fetched at `pc` (above 4094),
`pc` is set to `PROGRAM_BASE` first (log 29). -/
def placeWord (s : State) (w : Word) : State :=
  let a := if s.pc.toNat + 1 < Config.memSize then s.pc else BitVec.ofNat 16 Config.programBase
  { s with pc := a, mem := writeBytes s.mem a.toNat [hiByte w, loByte w] }

/-! ### The display buffer (spec/44_display.md R130) -/

/-- `FB[x][y]`. -/
def pixel (fb : Framebuffer) (x : Fin 64) (y : Fin 32) : Bool := fb[x][y]

/-- `clear()`: every pixel false. -/
def blankFb : Framebuffer := Vector.replicate 64 (Vector.replicate 32 false)

/-- `toggle(x, y)` without its answer: the pixel becomes its negation. The previous state is `pixel fb x y`. -/
def togglePixel (fb : Framebuffer) (x : Fin 64) (y : Fin 32) : Framebuffer :=
  fb.set x (fb[x].set y (!fb[x][y]))

/-! ### The keypad (spec/45_keypad_timers.md R140, R146) -/

/-- `K[k]`. -/
def State.key (s : State) (k : Fin 16) : Bool := s.keys[k]

/-- The least k with `K[k] = true`, scanning in index order (R146). -/
def State.leastKey (s : State) : Option (Fin 16) := (List.finRange 16).find? (fun k => s.key k)

end Sys2Proof.Machine
end

