-- ==== Sys2Proof/Machine/Flags.lean ====
section
/-! DEFINITION. Machine/Flags.lean: the results and flags of the ALU (spec/43_alu.md R118, R125 to R129) and the one order
in which they are written (spec/10_state.md R22, spec/43_alu.md R120). -/

namespace Sys2Proof.Machine

/-- The flag register VF. -/
abbrev vf : Fin 16 := 15

/-- A flag as the full byte 0x00 or 0x01 (R21). -/
def flagByte (c : Bool) : Byte := if c then 0x01 else 0x00

/-- The carry of a + b: 1 when the exact sum exceeds 255 (R125). -/
def addCarry (a b : Byte) : Bool := decide (a.toNat + b.toNat > 255)

/-- The flag of a - b: 1 when a >= b, no borrow (R118, R126). -/
def noBorrow (a b : Byte) : Bool := decide (a.toNat ≥ b.toNat)

/-- (a + b) mod 256, the sum taken exactly first (R125, R111). -/
def addResult (a b : Byte) : Byte := BitVec.ofNat 8 (a.toNat + b.toNat)

/-- (a - b) mod 256, the difference taken exactly first (R126). -/
def subResult (a b : Byte) : Byte := BitVec.ofInt 8 ((a.toNat : Int) - (b.toNat : Int))

/-- a >> 1, bit 7 becomes 0 (R127). -/
def shrResult (a : Byte) : Byte := a >>> 1

/-- (a << 1) mod 256, bit 0 becomes 0 (R129). -/
def shlResult (a : Byte) : Byte := a <<< 1

/-- The bit shifted out to the right: old bit 0 (R127). -/
def shrOut (a : Byte) : Bool := a.getLsbD 0

/-- The bit shifted out to the left: old bit 7 (R129). -/
def shlOut (a : Byte) : Bool := a.getLsbD 7

/-- Steps (3) and (4) of R22: the result to V[x], then the flag to V[15], last; so x = 15 ends as the flag (R120;
UNVERIFIED where it rests on decision D14, log 13). -/
def State.writeResultFlag (s : State) (x : Fin 16) (r : Byte) (c : Bool) : State :=
  (s.setV x r).setV vf (flagByte c)

end Sys2Proof.Machine
end

