-- ==== Sys2Proof/Machine/Alu.lean ====
section
/-! DEFINITION. Machine/Alu.lean: the register-register ALU group (spec/43_alu.md R120 to R129). Operands are read from the
state at the start, the result is written to V[x], the flag to VF last. -/

namespace Sys2Proof.Machine

/-- `LD Vx,Vy` (R121). -/
def execLdReg (x y : Fin 16) (s : State) : Outcome := complete (s.setV x (s.getV y))

/-- `OR Vx,Vy` (R122); VF is left as it was. -/
def execOrReg (x y : Fin 16) (s : State) : Outcome := complete (s.setV x (s.getV x ||| s.getV y))

/-- `AND Vx,Vy` (R123); VF is left as it was. -/
def execAndReg (x y : Fin 16) (s : State) : Outcome := complete (s.setV x (s.getV x &&& s.getV y))

/-- `XOR Vx,Vy` (R124); VF is left as it was. -/
def execXorReg (x y : Fin 16) (s : State) : Outcome := complete (s.setV x (s.getV x ^^^ s.getV y))

/-- `ADD Vx,Vy` (R125). -/
def execAddReg (x y : Fin 16) (s : State) : Outcome :=
  complete (s.writeResultFlag x (addResult (s.getV x) (s.getV y)) (addCarry (s.getV x) (s.getV y)))

/-- `SUB Vx,Vy` (R126): Vx - Vy. -/
def execSubReg (x y : Fin 16) (s : State) : Outcome :=
  complete (s.writeResultFlag x (subResult (s.getV x) (s.getV y)) (noBorrow (s.getV x) (s.getV y)))

/-- `SHR Vx` (R127): the y field is not used (spec/30_encoding.md R78). -/
def execShr (x _y : Fin 16) (s : State) : Outcome :=
  complete (s.writeResultFlag x (shrResult (s.getV x)) (shrOut (s.getV x)))

/-- `SUBN Vx,Vy` (R128): Vy - Vx. -/
def execSubnReg (x y : Fin 16) (s : State) : Outcome :=
  complete (s.writeResultFlag x (subResult (s.getV y) (s.getV x)) (noBorrow (s.getV y) (s.getV x)))

/-- `SHL Vx` (R129): the y field is not used (spec/30_encoding.md R78). -/
def execShl (x _y : Fin 16) (s : State) : Outcome :=
  complete (s.writeResultFlag x (shlResult (s.getV x)) (shlOut (s.getV x)))

end Sys2Proof.Machine
end

