-- ==== Sys2Proof/Machine/Operands.lean ====
section
/-! DEFINITION. Machine/Operands.lean: the operand forms of spec/30_encoding.md R73: the zero-extended address `nnn`, the
implicit V0 of the offset jump, the implicit memory operand at I, the key index, the decimal digits and the glyph address. -/

namespace Sys2Proof.Machine

/-- `zext_16(nnn)`: a byte address, unscaled (R73). -/
def addrOf (nnn : BitVec 12) : Word := nnn.setWidth 16

/-- `zext_16(v)` of a register (R107, R150). -/
def wideOf (b : Byte) : Word := b.setWidth 16

/-- The target of the offset jump: nnn + V0 modulo 65536, not reduced to 12 bits (R107; UNVERIFIED, log 23). -/
def offsetTarget (s : State) (nnn : BitVec 12) : Word := addrOf nnn + wideOf (s.getV 0)

/-- The implicit base address of the I-addressed instructions (R73, R155). -/
def indexBase (s : State) : Nat := s.i.toNat

/-- The key index in V[x]: `none` above 15 (R141; UNVERIFIED, log 12). -/
def keyIndex (b : Byte) : Option (Fin 16) := if h : b.toNat < 16 then some ⟨b.toNat, h⟩ else none

/-- The decimal digits of a byte: hundreds, tens, units (R152). -/
def decimalDigits (b : Byte) : List Byte :=
  [BitVec.ofNat 8 (b.toNat / 100), BitVec.ofNat 8 (b.toNat / 10 % 10), BitVec.ofNat 8 (b.toNat % 10)]

/-- The glyph address of a byte: GLYPH_BASE + v * GLYPH_HEIGHT, the whole of v (R151; UNVERIFIED, log 22). -/
def glyphAddr (b : Byte) : Word := BitVec.ofNat 16 (Config.glyphBase + b.toNat * Config.glyphHeight)

/-- The registers V0..Vx in order, x included (R153). -/
def regsUpTo (s : State) (x : Fin 16) : List Byte :=
  ((List.finRange 16).filter (fun k => decide (k ≤ x))).map s.getV

/-- `V[k] <- bs[k]` for each k within the list, from register `k` upward (R154). -/
def setRegsFrom (s : State) : Nat → List Byte → State
  | _, [] => s
  | k, b :: bs => if h : k < 16 then setRegsFrom (s.setV ⟨k, h⟩ b) (k + 1) bs else s

end Sys2Proof.Machine
end

