-- ==== Sys2Proof/Machine/Display.lean ====
section
/-! DEFINITION. Machine/Display.lean: clear and sprite draw (spec/44_display.md R130 to R132). -/

namespace Sys2Proof.Machine

/-- The column of a pixel: (vx + col) mod 64, on integers (R132). -/
def wrapX (a : Nat) : Fin 64 := ⟨a % 64, Nat.mod_lt _ (by decide)⟩

/-- The row of a pixel: (vy + row) mod 32, on integers (R132). -/
def wrapY (a : Nat) : Fin 32 := ⟨a % 32, Nat.mod_lt _ (by decide)⟩

/-- What the scan carries: the buffer and the collision so far. -/
abbrev Scan := Framebuffer × Bool

/-- One column of one sprite row: a set bit toggles its pixel, and a pixel that was set is a collision (R132). -/
def drawBit (vx py : Nat) (b : Byte) (acc : Scan) (col : Nat) : Scan :=
  -- bit 7 is column 0 (UNVERIFIED: general knowledge in the spec, decision D16; unsafe, log 15)
  if b.getLsbD (7 - col) then
    (togglePixel acc.1 (wrapX (vx + col)) (wrapY py),
      acc.2 || pixel acc.1 (wrapX (vx + col)) (wrapY py))
  else acc

/-- One sprite row: columns 0 to 7. -/
def drawRow (vx py : Nat) (b : Byte) (acc : Scan) : Scan := (List.range 8).foldl (drawBit vx py b) acc

/-- The sprite rows from row coordinate `py` downward. -/
def drawRows (vx : Nat) : Nat → List Byte → Scan → Scan
  | _, [], acc => acc
  | py, b :: bs, acc => drawRows vx (py + 1) bs (drawRow vx py b acc)

/-- `CLS` (R131). -/
def execCls (s : State) : Outcome := complete { s with fb := blankFb }

/-- `DRW Vx,Vy,n` (R132): the coordinates, the base and the sprite bytes are read first, the whole range is tested before
anything moves, and VF is written last with the collision, from scratch. -/
def execDrw (x y : Fin 16) (n : Nat) (s : State) : Outcome :=
  if rangeOk (indexBase s) n then
    let scan := drawRows (s.getV x).toNat (s.getV y).toNat (readBytes s.mem (indexBase s) n) (s.fb, false)
    complete (State.setV { s with fb := scan.1 } vf (flagByte scan.2))
  else raise (.addrOob s.i) s

end Sys2Proof.Machine
end

