-- ==== Sys2Proof/Machine/Flow.lean ====
section
/-! DEFINITION. Machine/Flow.lean: control transfer (spec/41_flow.md R100 to R108). `s.pc` is the post-fetch pc, A + 2. -/

namespace Sys2Proof.Machine

/-- `RET` (R100). -/
def execRet (s : State) : Outcome :=
  match s.pop with
  | none => raise .stackUnderflow s
  | some (a, t) => complete (t.setPc a)

/-- `JP nnn` (R101). -/
def execJp (nnn : BitVec 12) (s : State) : Outcome := complete (s.setPc (addrOf nnn))

/-- `CALL nnn` (R102). -/
def execCall (nnn : BitVec 12) (s : State) : Outcome :=
  match s.push s.pc with
  | none => raise .stackOverflow s
  | some t => complete (t.setPc (addrOf nnn))

/-- `SE Vx,nn` (R103). -/
def execSeImm (x : Fin 16) (nn : Byte) (s : State) : Outcome := complete (s.skipIf (s.getV x == nn))

/-- `SNE Vx,nn` (R104). -/
def execSneImm (x : Fin 16) (nn : Byte) (s : State) : Outcome := complete (s.skipIf (s.getV x != nn))

/-- `SE Vx,Vy` (R105). -/
def execSeReg (x y : Fin 16) (s : State) : Outcome := complete (s.skipIf (s.getV x == s.getV y))

/-- `SNE Vx,Vy` (R106). -/
def execSneReg (x y : Fin 16) (s : State) : Outcome := complete (s.skipIf (s.getV x != s.getV y))

/-- `JP V0,nnn` (R107). -/
def execJpV0 (nnn : BitVec 12) (s : State) : Outcome := complete (s.setPc (offsetTarget s nnn))

end Sys2Proof.Machine
end

