-- ==== Sys2Proof/Machine/Immediate.lean ====
section
/-! DEFINITION. Machine/Immediate.lean: immediate loads, immediate add, index set, random (spec/42_immediate.md). -/

namespace Sys2Proof.Machine

/-- `LD Vx,nn` (R110). -/
def execLdImm (x : Fin 16) (nn : Byte) (s : State) : Outcome := complete (s.setV x nn)

/-- `ADD Vx,nn` (R111): wraps, and VF is not written. -/
def execAddImm (x : Fin 16) (nn : Byte) (s : State) : Outcome := complete (s.setV x (addResult (s.getV x) nn))

/-- `LD I,nnn` (R112). -/
def execLdI (nnn : BitVec 12) (s : State) : Outcome := complete (s.setI (addrOf nnn))

/-- `RND Vx,nn` with the byte `rnd` the step was given (R113). -/
def rndWith (rnd : Byte) (x : Fin 16) (nn : Byte) (s : State) : Outcome := complete (s.setV x (rnd &&& nn))

/-- `RND Vx,nn` (R113): the byte is the next free one, fresh for each executed `RND` (log 4). -/
def execRnd (x : Fin 16) (nn : Byte) (s : State) : Outcome :=
  rndWith (Config.rndByte s.draws) x nn { s with draws := s.draws + 1 }

end Sys2Proof.Machine
end

