-- ==== Sys2Proof/Machine/IndexMemory.lean ====
section
/-! DEFINITION. Machine/IndexMemory.lean: index arithmetic, glyph address, decimal store, register dump and load
(spec/46_index_memory.md). The range is tested as a whole before the first byte moves (spec/20_memory.md R60). -/

namespace Sys2Proof.Machine

/-- A store of `bs` from address I, or `ADDR_OOB(I)` with nothing stored (R60, R155). I is not changed. -/
def storeAtI (bs : List Byte) (s : State) : Outcome :=
  if rangeOk (indexBase s) bs.length then complete { s with mem := writeBytes s.mem (indexBase s) bs }
  else raise (.addrOob s.i) s

/-- `ADD I,Vx` (R150): modulo 65536, no flag. -/
def execAddI (x : Fin 16) (s : State) : Outcome := complete (s.setI (s.i + wideOf (s.getV x)))

/-- `LD F,Vx` (R151). -/
def execLdF (x : Fin 16) (s : State) : Outcome := complete (s.setI (glyphAddr (s.getV x)))

/-- `LD B,Vx` (R152). -/
def execLdB (x : Fin 16) (s : State) : Outcome := storeAtI (decimalDigits (s.getV x)) s

/-- `LD [I],Vx` (R153): V0..Vx, x included. -/
def execDumpRegs (x : Fin 16) (s : State) : Outcome := storeAtI (regsUpTo s x) s

/-- `LD Vx,[I]` (R154): V0..Vx, x included. -/
def execLoadRegs (x : Fin 16) (s : State) : Outcome :=
  if rangeOk (indexBase s) (x.val + 1) then
    complete (setRegsFrom s 0 (readBytes s.mem (indexBase s) (x.val + 1)))
  else raise (.addrOob s.i) s

end Sys2Proof.Machine
end

