-- ==== Sys2Proof/Machine/KeypadTimers.lean ====
section
/-! DEFINITION. Machine/KeypadTimers.lean: keypad skips, timer moves, block until key (spec/45_keypad_timers.md). -/

namespace Sys2Proof.Machine

/-- `SKP Vx` (R141). -/
def execSkp (x : Fin 16) (s : State) : Outcome :=
  match keyIndex (s.getV x) with
  | none => raise (.keyOor (s.getV x)) s
  | some k => complete (s.skipIf (s.key k))

/-- `SKNP Vx` (R142): an index above 15 does not skip. -/
def execSknp (x : Fin 16) (s : State) : Outcome :=
  match keyIndex (s.getV x) with
  | none => raise (.keyOor (s.getV x)) s
  | some k => complete (s.skipIf (!s.key k))

/-- `LD Vx,DT` (R143). -/
def execLdVxDt (x : Fin 16) (s : State) : Outcome := complete (s.setV x s.dt)

/-- `LD DT,Vx` (R144). -/
def execLdDtVx (x : Fin 16) (s : State) : Outcome := complete (s.setDt (s.getV x))

/-- `LD ST,Vx` (R145). -/
def execLdStVx (x : Fin 16) (s : State) : Outcome := complete (s.setSt (s.getV x))

/-- `LD Vx,K` (R146): the least latched key, or the rewind of `pc` to this same instruction. -/
def execLdVxK (x : Fin 16) (s : State) : Outcome :=
  match s.leastKey with
  | some k => complete (s.setV x (BitVec.ofNat 8 k.val))
  | none => complete s.rewindPc

end Sys2Proof.Machine
end

