-- ==== Sys2Proof/Machine/Step.lean ====
section
/-! DEFINITION. Machine/Step.lean: the `step` event (spec/40_step_cycle.md R90 to R97), and a word stored where the next
step fetches. -/

namespace Sys2Proof.Machine

/-- One step (R90): fetch, advance `pc` by 2, decode, execute. A failed fetch raises `FETCH_OOB(A)` and changes nothing,
`pc` included (R91; UNVERIFIED, decision D8, log 9). A word that is no instruction raises `UNKNOWN_INSTR(w)` with `pc`
already advanced (R94). -/
def step (s : State) : Host.Outcome State Fault Refusal :=
  match fetchWord s with
  | none => raise (.fetchOob s.pc) s
  | some w =>
    match decodeWord w with
    | none => raise (.unknownInstr w) s.advancePc
    | some i => exec i s.advancePc

/-- The instruction whose bits are `w` (numbered as spec/opcode_table.json numbers them, cut to `nbits`, zeros above) stored
where `step` fetches next (log 29). -/
def State.withFetchWord (s : State) (nbits w : Nat) : State := placeWord s (BitVec.ofNat 16 (w % 2 ^ nbits))

end Sys2Proof.Machine
end

