-- ==== Sys2Proof/Machine/Events.lean ====
section
/-! DEFINITION. Machine/Events.lean: the events of spec/00_scope.md R4 beside `step`: `reset`, `load`, `tick`, the key
events and `snapshot`; schedules of events (R6); a launch (spec/70_reset_and_hazards.md R196, R197). -/

namespace Sys2Proof.Machine

/-- The `reset` event (R190): every piece of state as `State.reset` has it. The random source is outside the CORE (R33), so
the count of drawn bytes goes on: a reset does not make it repeat its bytes (log 4). -/
def resetEvent (s : State) : State := { State.reset with draws := s.draws }

/-- The `load(image)` event (R195, R196): the image from `PROGRAM_BASE` upward and nothing else, or `LOAD_REJECTED(len)`
with no byte written. -/
def load (image : List Byte) (s : State) : State :=
  if imageWellFormed image then { s with mem := writeBytes s.mem Config.programBase image, report := .none }
  else { s with report := .loadRejected image.length }

/-- One timer's decrement, which saturates at 0 (R175). -/
def countDown (b : Byte) : Byte := if b = 0 then 0 else b - 1

/-- The `tick` event (R175): both timers, independently, and nothing else. -/
def tick (s : State) : State := { s with dt := countDown s.dt, st := countDown s.st }

/-- `key_down(k)` (R140). -/
def keyDown (k : Fin 16) (s : State) : State := { s with keys := s.keys.set k true }

/-- `key_up(k)` (R140). -/
def keyUp (k : Fin 16) (s : State) : State := { s with keys := s.keys.set k false }

/-- The `snapshot` event (R133): the 64 x 32 booleans as they stand; the state is not changed. -/
def snapshot (s : State) : Framebuffer := s.fb

/-- The events of R4. -/
inductive Event where
  | reset
  | load (image : List Byte)
  | tick
  | keyDown (k : Fin 16)
  | keyUp (k : Fin 16)
  | step
  | snapshot
  deriving DecidableEq, Repr

/-- What one event does to the CORE (R4). Each is atomic; a schedule gives their order. -/
def applyEvent (e : Event) (s : State) : Outcome :=
  match e with
  | .reset => .next (resetEvent s)
  | .load image => .next (load image s)
  | .tick => .next (tick s)
  | .keyDown k => .next (keyDown k s)
  | .keyUp k => .next (keyUp k s)
  | .step => step s
  | .snapshot => .next s

/-- A history of the CORE: the events of a schedule, in order. Every interleaving is legal (R6, R177). -/
def runEvents : List Event → State → Outcome
  | [], s => .next s
  | e :: es, s =>
    match applyEvent e s with
    | .next t => runEvents es t
    | .fault r => .fault r
    | .refused r => .refused r

/-- One frame of the source's driver (R6): one tick, `n` steps (INSTR_PER_TICK, open), the key events found, a snapshot. -/
def frameEvents (n : Nat) (keyEvents : List Event) : List Event :=
  .tick :: (List.replicate n .step ++ keyEvents ++ [.snapshot])

/-- Boot (R197): `reset`, then one `load`. A launch whose load was rejected is refused: "caller must not proceed to
execution on failure" (R196). -/
def launch (image : List Byte) (s : State) : Outcome :=
  let t := load image (resetEvent s)
  match t.report with
  | .loadRejected len => .refused (.launchRejected len)
  | _ => .next t

end Sys2Proof.Machine
end

