-- ==== Sys2Proof/Safety.lean ====
section
/-! DEFINITION. Safety.lean: the terms in which claims are made: what an instruction may change (spec/10_state.md R36), the
condition it reports (spec/60_exceptions.md R161 to R170), where it leaves `pc` (spec/10_state.md R24), the invariant of
memory, the fixed points of a run (spec/70_reset_and_hazards.md R198) and a safe run (spec/60_exceptions.md R183). -/

namespace Sys2Proof.Machine

/-! ### What an instruction may change -/

/-- The pieces of state an instruction may write: everything not named is unchanged. `memBase` and `memCount` give the bytes
it may store to. The keypad latches are not listed: no instruction writes them (R30). -/
structure Touches where
  regs : List (Fin 16) := []
  index : Bool := false
  pc : Bool := false
  stack : Bool := false
  sp : Bool := false
  dt : Bool := false
  st : Bool := false
  display : Bool := false
  memBase : Nat := 0
  memCount : Nat := 0
  draws : Bool := false
  deriving DecidableEq, Repr

/-- `t` differs from `s` at most in the pieces `w` names, and in `report`, which every instruction writes. -/
structure Frame (w : Touches) (s t : State) : Prop where
  regs : ∀ r : Fin 16, r ∉ w.regs → t.getV r = s.getV r
  index : w.index = false → t.i = s.i
  pc : w.pc = false → t.pc = s.pc
  stack : w.stack = false → ∀ j : Fin 16, t.stack[j] = s.stack[j]
  sp : w.sp = false → t.sp = s.sp
  dt : w.dt = false → t.dt = s.dt
  st : w.st = false → t.st = s.st
  display : w.display = false → ∀ (x : Fin 64) (y : Fin 32), pixel t.fb x y = pixel s.fb x y
  keys : ∀ k : Fin 16, t.key k = s.key k
  mem : ∀ a : Nat, ¬(w.memBase ≤ a ∧ a < w.memBase + w.memCount) → memRead t.mem a = memRead s.mem a
  draws : w.draws = false → t.draws = s.draws

/-- The "writes" column of R36, one entry per instruction. `draws` is the model's own (log 4). -/
def touchesOf (i : Instr) (s : State) : Touches :=
  match i with
  | .cls => { display := true }
  | .ret => { pc := true, sp := true }
  | .jp _ => { pc := true }
  | .call _ => { pc := true, stack := true, sp := true }
  | .seImm _ _ => { pc := true }
  | .sneImm _ _ => { pc := true }
  | .seReg _ _ => { pc := true }
  | .ldImm x _ => { regs := [x] }
  | .addImm x _ => { regs := [x] }
  | .ldReg x _ => { regs := [x] }
  | .orReg x _ => { regs := [x] }
  | .andReg x _ => { regs := [x] }
  | .xorReg x _ => { regs := [x] }
  | .addReg x _ => { regs := [x, 15] }
  | .subReg x _ => { regs := [x, 15] }
  | .shr x _ => { regs := [x, 15] }
  | .subnReg x _ => { regs := [x, 15] }
  | .shl x _ => { regs := [x, 15] }
  | .sneReg _ _ => { pc := true }
  | .ldI _ => { index := true }
  | .jpV0 _ => { pc := true }
  | .rnd x _ => { regs := [x], draws := true }
  | .drw _ _ _ => { regs := [15], display := true }
  | .skp _ => { pc := true }
  | .sknp _ => { pc := true }
  | .ldVxDt x => { regs := [x] }
  | .ldVxK x => { regs := [x], pc := true }
  | .ldDtVx _ => { dt := true }
  | .ldStVx _ => { st := true }
  | .addI _ => { index := true }
  | .ldF _ => { index := true }
  | .ldB _ => { memBase := s.i.toNat, memCount := 3 }
  | .dumpRegs x => { memBase := s.i.toNat, memCount := x.val + 1 }
  | .loadRegs x => { regs := (List.finRange 16).filter (fun k => decide (k ≤ x)) }

/-- The six instructions that write VF as a flag (R21). -/
def writesFlag : Instr → Bool
  | .addReg _ _ => true | .subReg _ _ => true | .subnReg _ _ => true
  | .shr _ _ => true | .shl _ _ => true | .drw _ _ _ => true
  | .cls => false | .ret => false | .jp _ => false | .call _ => false
  | .seImm _ _ => false | .sneImm _ _ => false | .seReg _ _ => false | .ldImm _ _ => false
  | .addImm _ _ => false | .ldReg _ _ => false | .orReg _ _ => false | .andReg _ _ => false
  | .xorReg _ _ => false | .sneReg _ _ => false | .ldI _ => false | .jpV0 _ => false
  | .rnd _ _ => false | .skp _ => false | .sknp _ => false | .ldVxDt _ => false
  | .ldVxK _ => false | .ldDtVx _ => false | .ldStVx _ => false | .addI _ => false
  | .ldF _ => false | .ldB _ => false | .dumpRegs _ => false | .loadRegs _ => false

/-! ### What an instruction reports -/

/-- `ADDR_OOB(I)` when `count` bytes from I pass address 4095 (R162), else nothing. -/
def addrCondition (count : Nat) (s : State) : Report :=
  if count ≠ 0 ∧ s.i.toNat + count - 1 > 4095 then .addrOob s.i else .none

/-- `KEY_OOR(v)` when v = V[x] > 15 (R166), else nothing. -/
def keyCondition (x : Fin 16) (s : State) : Report :=
  if (s.getV x).toNat > 15 then .keyOor (s.getV x) else .none

/-- The one condition an instruction can raise, and when (R162, R164, R165, R166, R170). -/
def conditionOf (i : Instr) (s : State) : Report :=
  match i with
  | .call _ => if s.sp.val = 16 then .stackOverflow else .none
  | .ret => if s.sp.val = 0 then .stackUnderflow else .none
  | .drw _ _ n => addrCondition n s
  | .ldB _ => addrCondition 3 s
  | .dumpRegs x => addrCondition (x.val + 1) s
  | .loadRegs x => addrCondition (x.val + 1) s
  | .skp x => keyCondition x s
  | .sknp x => keyCondition x s
  | .cls => .none | .jp _ => .none | .seImm _ _ => .none | .sneImm _ _ => .none
  | .seReg _ _ => .none | .ldImm _ _ => .none | .addImm _ _ => .none | .ldReg _ _ => .none
  | .orReg _ _ => .none | .andReg _ _ => .none | .xorReg _ _ => .none | .addReg _ _ => .none
  | .subReg _ _ => .none | .shr _ _ => .none | .subnReg _ _ => .none | .shl _ _ => .none
  | .sneReg _ _ => .none | .ldI _ => .none | .jpV0 _ => .none | .rnd _ _ => .none
  | .ldVxDt _ => .none | .ldVxK _ => .none | .ldDtVx _ => .none | .ldStVx _ => .none
  | .addI _ => .none | .ldF _ => .none

/-! ### Where an instruction leaves pc -/

/-- Where a skip leaves `pc` (R24): A + 4 taken, A + 2 not. -/
def pcAfterSkip (taken : Bool) (a : Word) : Word := if taken then a + 4 else a + 2

/-- The latch that a keypad skip looks at; an index above 15 names no latch (R141). -/
def keyDownAt (s : State) (b : Byte) : Bool := s.keys[b.toNat]?.getD false

/-- Whether any latch is true (R146). -/
def anyKey (s : State) : Bool := s.keys.toList.any id

/-- How an instruction fetched from address `a` leaves `pc` (R24), read off the state `s` before the step. -/
def pcAfter (i : Instr) (s : State) (a : Word) : Word :=
  match i with
  | .jp nnn => nnn.setWidth 16
  | .jpV0 nnn => BitVec.ofNat 16 (nnn.toNat + (s.getV 0).toNat)
  | .call nnn => if s.sp.val < 16 then nnn.setWidth 16 else a + 2
  | .ret => if s.sp.val = 0 then a + 2 else (s.stack[s.sp.val - 1]?).getD 0
  | .seImm x nn => pcAfterSkip (decide (s.getV x = nn)) a
  | .sneImm x nn => pcAfterSkip (decide (s.getV x ≠ nn)) a
  | .seReg x y => pcAfterSkip (decide (s.getV x = s.getV y)) a
  | .sneReg x y => pcAfterSkip (decide (s.getV x ≠ s.getV y)) a
  | .skp x => pcAfterSkip (decide ((s.getV x).toNat ≤ 15) && keyDownAt s (s.getV x)) a
  | .sknp x => pcAfterSkip (decide ((s.getV x).toNat ≤ 15) && !keyDownAt s (s.getV x)) a
  | .ldVxK _ => if anyKey s then a + 2 else a
  | .cls => a + 2 | .ldImm _ _ => a + 2 | .addImm _ _ => a + 2 | .ldReg _ _ => a + 2
  | .orReg _ _ => a + 2 | .andReg _ _ => a + 2 | .xorReg _ _ => a + 2 | .addReg _ _ => a + 2
  | .subReg _ _ => a + 2 | .shr _ _ => a + 2 | .subnReg _ _ => a + 2 | .shl _ _ => a + 2
  | .ldI _ => a + 2 | .rnd _ _ => a + 2 | .drw _ _ _ => a + 2 | .ldVxDt _ => a + 2
  | .ldDtVx _ => a + 2 | .ldStVx _ => a + 2 | .addI _ => a + 2 | .ldF _ => a + 2
  | .ldB _ => a + 2 | .dumpRegs _ => a + 2 | .loadRegs _ => a + 2

/-! ### What a sprite draws -/

/-- Whether the sprite of `n` rows at address `base`, drawn with its corner at (vx, vy), has a set bit on pixel (x, y):
the pixel is column `col` and row `row` of it, wrapped (R132). -/
def spriteBit (m : Memory) (base n vx vy : Nat) (x : Fin 64) (y : Fin 32) : Prop :=
  ∃ row col : Nat, row < n ∧ col < 8 ∧ (vx + col) % 64 = x.val ∧ (vy + row) % 32 = y.val ∧
    (memRead m (base + row)).getLsbD (7 - col) = true

/-! ### What reset leaves -/

/-- The value of each piece of state after reset (R34, R190), and `report` at `NONE` (log 3); `draws` is not named (log 4).
UNVERIFIED where R34 rests on decisions D4 to D7 (log 5, log 6, log 7). -/
structure ResetValues (t : State) : Prop where
  regs : ∀ x : Fin 16, t.getV x = 0x00
  index : t.i = 0x0000
  pc : t.pc = 0x0200
  stack : ∀ j : Fin 16, t.stack[j] = 0x0000
  sp : t.sp.val = 0
  dt : t.dt = 0x00
  st : t.st = 0x00
  display : ∀ (x : Fin 64) (y : Fin 32), pixel t.fb x y = false
  keys : ∀ k : Fin 16, t.key k = false
  glyphs : Config.glyphs.length = 80 ∧ ∀ a : Nat, a < 80 → Config.glyphs[a]? = some (memRead t.mem a)
  zeros : ∀ a : Nat, 80 ≤ a → memRead t.mem a = 0x00
  report : t.report = .none

/-! ### The invariant and the fixed points -/

/-- The invariant of the model: memory keeps its canonical form, so that equal memories are equal data, and lists no
address outside 0..4095 (R35, R51). -/
abbrev State.inv (s : State) : Prop := Memory.wf s.mem

/-- The run has ended in a self-jump (R198): `pc` = A and the word there is `1` ++ A (log 27). -/
def Ended (s : State) : Prop := ∃ a : BitVec 12, s.pc = a.setWidth 16 ∧ fetchWord s = some (wordA 0x1#4 a)

/-- The machine waits for a key (R146): the word at `pc` is `Fx0A` and no latch is true. -/
def Waiting (s : State) : Prop :=
  (∃ x : Fin 16, fetchWord s = some (wordXB 0xF#4 x 0x0A#8)) ∧ ∀ k : Fin 16, s.key k = false

/-- Two states that differ at most in stack entries at index SP and above (R26). -/
def SameButDead (s t : State) : Prop :=
  t = { s with stack := t.stack } ∧ ∀ j : Fin 16, j.val < s.sp.val → t.stack[j] = s.stack[j]

/-! ### A safe run -/

/-- The reports of the steps and loads of a schedule, accumulated outside the state (R183). -/
def reportsOf : List Event → State → List Report
  | [], _ => []
  | e :: es, s =>
    match applyEvent e s with
    | .next t =>
      (match e with
        | .step => [t.report]
        | .load _ => [t.report]
        | .reset => [] | .tick => [] | .keyDown _ => [] | .keyUp _ => [] | .snapshot => [])
        ++ reportsOf es t
    | .fault _ => []
    | .refused _ => []

/-- A run is safe when no condition is ever reported (R183): this is what the cautious treatments of
spec/93_implementation_defined.md (U1, U2, U4 to U7) ask of a program, outside the state (log 30). -/
def SafeRun (es : List Event) (s : State) : Prop := ∀ r ∈ reportsOf es s, r = .none

end Sys2Proof.Machine
end

