-- ==== Sys2Proof/Certificates/Slice0/Obligations.lean ====
section
/-! DEFINITION. Certificates/Slice0/Obligations.lean: the statements about the machine, each naming the rule of spec/ it
formalises. `exec` runs on a state whose `pc` is the post-fetch value A + 2 (spec/40_step_cycle.md R93), so "pc is not
touched" reads `t.pc = s.pc`. A docstring that says DECISION rests on a choice the spec marks as its own. A clause
`decodeWord (…) = some (…)` states the encoding as the instruction's own rule gives it; but for the words of R82 (`CLS`,
`LD Vx,nn`, `LD I,nnn`, `DRW`, `ADD Vx,Vy`) the opcode numbers are the spec's decision D2 (log 2). -/

open Sys2Proof Sys2Proof.Machine

/-! ### Encoding (spec/30_encoding.md) -/

/-- The five words the source spells (R82) and one more word of each other family, written out byte by byte from R76, decode
to the instructions they stand for. DECISION D2: the opcode numbers (log 2). -/
def Obligations.SpelledWordsDecode : Prop :=
  decode [0x00, 0xE0] = .ok (.cls, []) ∧ decode [0x60, 0x0A] = .ok (.ldImm 0 0x0A, []) ∧
  decode [0xA0, 0x00] = .ok (.ldI 0x000, []) ∧ decode [0xD0, 0x05] = .ok (.drw 0 0 5, []) ∧
  decode [0x80, 0x14] = .ok (.addReg 0 1, []) ∧ decode [0x22, 0x0A] = .ok (.call 0x20A, []) ∧
  decode [0xE2, 0x9E] = .ok (.skp 2, []) ∧ decode [0xF2, 0x65] = .ok (.loadRegs 2, [])

/-- Decoding the two bytes of a well-formed instruction gives it back, at every value of every operand, and leaves the bytes
after them (R70, R71, R72). DECISION D2: the opcode numbers (log 2). -/
def Obligations.DecodeOfEncode : Prop :=
  ∀ (i : Instr) (rest : List Byte), i.wellFormed = true → decode (encode i ++ rest) = .ok (i, rest)

/-- A word that decodes is the word of the instruction it decodes to, and that instruction is well formed: no word has two
meanings and no instruction has two words (R74). DECISION D2: the opcode numbers (log 2). -/
def Obligations.EncodeOfDecode : Prop :=
  ∀ (w : Word) (i : Instr), decodeWord w = some i → encodeWord i = w ∧ i.wellFormed = true

/-- A word decodes exactly when it matches a row of the opcode map in every fixed bit, the row it matches is the decoded
instruction's, and no word matches two rows (R74, R75). DECISIONS D2, D12, D13 (log 2). -/
def Obligations.KnownWordsMatchOneRow : Prop :=
  (∀ w : Word, (decodeWord w).isSome = true ↔ ∃ r ∈ opcodeRows, w &&& r.mask = r.pattern) ∧
  (∀ (w : Word) (i : Instr), decodeWord w = some i → w &&& (opcodeRow i).mask = (opcodeRow i).pattern) ∧
  (∀ (w : Word) (r q : OpcodeRow), r ∈ opcodeRows → q ∈ opcodeRows → w &&& r.mask = r.pattern →
    w &&& q.mask = q.pattern → r = q)

/-- The unknown words are exactly those R77 lists, group by group. DECISIONS D12, D13: the strict reading (log 2). -/
def Obligations.UnknownWordsByGroup : Prop :=
  ∀ w : Word, decodeWord w = none ↔
    (fieldG w = 0x0 ∧ w ≠ 0x00E0 ∧ w ≠ 0x00EE) ∨ (fieldG w = 0x5 ∧ fieldN w ≠ 0x0) ∨
    (fieldG w = 0x8 ∧ fieldN w ∈ [0x8#4, 0x9#4, 0xA#4, 0xB#4, 0xC#4, 0xD#4, 0xF#4]) ∨
    (fieldG w = 0x9 ∧ fieldN w ≠ 0x0) ∨ (fieldG w = 0xE ∧ fieldNN w ∉ [0x9E#8, 0xA1#8]) ∨
    (fieldG w = 0xF ∧
      fieldNN w ∉ [0x07#8, 0x0A#8, 0x15#8, 0x18#8, 0x1E#8, 0x29#8, 0x33#8, 0x55#8, 0x65#8])

/-! ### The step (spec/40_step_cycle.md) -/

/-- R90: when the two bytes at `pc` are addresses and decode to i, the step is i's meaning after `pc` has advanced by 2. -/
def Obligations.StepRunsDecodedInstruction : Prop :=
  ∀ (s : State) (i : Instr), s.pc.toNat + 1 ≤ 4095 →
    decode [memRead s.mem s.pc.toNat, memRead s.mem (s.pc.toNat + 1)] = .ok (i, []) →
    step s = exec i { s with pc := s.pc + 2 }

/-- A word stored where the next step fetches is the word the next step runs: its two bytes stand at `pc` and `pc + 1`, high
byte first, and every other byte is as before. The placing of a word is the model's own (log 29). -/
def Obligations.PlacedWordIsRun : Prop :=
  ∀ (s : State) (w : Word) (i : Instr), s.pc.toNat + 1 ≤ 4095 → decodeWord w = some i →
    ∃ u : State, step (s.withFetchWord 16 w.toNat) = exec i { u with pc := s.pc + 2 } ∧ u = { s with mem := u.mem } ∧
      memRead u.mem s.pc.toNat = hiByte w ∧ memRead u.mem (s.pc.toNat + 1) = loByte w ∧
      ∀ a, a ≠ s.pc.toNat → a ≠ s.pc.toNat + 1 → memRead u.mem a = memRead s.mem a

/-- R91: a fetch at a `pc` above 4094 reports `FETCH_OOB(pc)` and changes nothing, and so does every later step. DECISION
D8: `pc` is left unchanged (log 9). -/
def Obligations.FailedFetchChangesNothing : Prop :=
  ∀ s : State, s.pc.toNat > 4094 →
    ∃ t, step s = .next t ∧ t = { s with report := .fetchOob s.pc } ∧ step t = .next t

/-- R94: a word that is no instruction reports `UNKNOWN_INSTR` with the word and does nothing but the advance of `pc`. -/
def Obligations.UnknownWordIsReportedNoOp : Prop :=
  ∀ (s : State) (w : Word), s.pc.toNat + 1 ≤ 4095 →
    decode [memRead s.mem s.pc.toNat, memRead s.mem (s.pc.toNat + 1)] = .error (.unknown w) →
    step s = .next { s with pc := s.pc + 2, report := .unknownInstr w }

/-- R97: the step is total and deterministic, in every state; no step faults and none is refused. -/
def Obligations.StepIsTotal : Prop :=
  ∀ s : State, ∃ t, step s = .next t ∧ ∀ u, step s = .next u → u = t

/-- R24: where a step leaves `pc`, for every instruction, with A the address it was fetched from; A + 2 after an unknown
word; A after a failed fetch. DECISIONS D8, D19, D25: the failed fetch, the failed call and return, the width of the offset jump
(log 9, log 17, log 23). -/
def Obligations.StepLeavesPcAsTabled : Prop :=
  ∀ s t : State, step s = .next t →
    (∀ w i, fetchWord s = some w → decodeWord w = some i → t.pc = pcAfter i s s.pc) ∧
    (∀ w, fetchWord s = some w → decodeWord w = none → t.pc = s.pc + 2) ∧
    (fetchWord s = none → t.pc = s.pc)

/-- R170 with R162, R164, R165, R166: the report of each instruction, exactly: its one condition when that arises, `NONE`
otherwise. DECISIONS D10, D11 (log 11, log 12). -/
def Obligations.ReportIsTheOneCondition : Prop :=
  ∀ (i : Instr) (s t : State), exec i s = .next t → t.report = conditionOf i s

/-- R162, R164, R165: when each condition is raised, and that the instruction then does nothing (`pc` is A + 2, the value it
has in `s`). DECISIONS D10 (nothing moves when part is in range), D19 (a failed call or return falls through) (log 11, log 17). -/
def Obligations.ConditionsAreNoOps : Prop :=
  ∀ (s : State) (x y : Fin 16) (n : Nat) (nnn : BitVec 12),
    (n > 0 → s.i.toNat + n - 1 > 4095 → exec (.drw x y n) s = .next { s with report := .addrOob s.i }) ∧
    (s.i.toNat + 2 > 4095 → exec (.ldB x) s = .next { s with report := .addrOob s.i }) ∧
    (s.i.toNat + x.val > 4095 → exec (.dumpRegs x) s = .next { s with report := .addrOob s.i }) ∧
    (s.i.toNat + x.val > 4095 → exec (.loadRegs x) s = .next { s with report := .addrOob s.i }) ∧
    (s.sp.val = 16 → exec (.call nnn) s = .next { s with report := .stackOverflow }) ∧
    (s.sp.val = 0 → exec .ret s = .next { s with report := .stackUnderflow })

/-- R11, R169: a step that reports a condition has changed nothing but the fetch's advance of `pc`, and not even that when
the fetch itself failed. DECISION D8 for the failed fetch (log 9). -/
def Obligations.ConditionsArePrecise : Prop :=
  ∀ s t : State, step s = .next t → t.report ≠ .none →
    (t = { s with report := t.report } ∧ t.report = .fetchOob s.pc) ∨
    (t = { s with pc := s.pc + 2, report := t.report } ∧ ∀ a, t.report ≠ .fetchOob a)

/-! ### What instructions may change (spec/10_state.md) -/

/-- R36, the writes: an instruction changes nothing but the pieces of state its entry lists: registers, I, pc, stack entries,
SP, timers, pixels, and the stored bytes of memory; never a latch. `RET` writes SP and pc and no stack entry; `CALL` writes
the stack, SP and pc. DECISION D15: what an entry does not name is unchanged (log 14); `draws` is the model's own (log 4). -/
def Obligations.InstructionFootprint : Prop :=
  ∀ (i : Instr) (s t : State), exec i s = .next t → Frame (touchesOf i s) s t

/-- R21: the six flag writers leave VF 0 or 1 unless they raise; every other instruction leaves VF unchanged unless VF is
among its named destinations. DECISION D15: the three logic instructions leave VF (log 14). -/
def Obligations.VfIsWrittenAsFlagBySixOnly : Prop :=
  ∀ (i : Instr) (s t : State), exec i s = .next t →
    (writesFlag i = true → t.report = .none → t.getV 15 = 0x00 ∨ t.getV 15 = 0x01) ∧
    (writesFlag i = false → (15 : Fin 16) ∉ (touchesOf i s).regs → t.getV 15 = s.getV 15)

/-- R27, R30, R31: a step writes no latch, writes a timer only by the instruction that names it, and changes a byte of memory
only by `LD B,Vx` or `LD [I],Vx`. -/
def Obligations.StepWritersOfSharedState : Prop :=
  ∀ s t : State, step s = .next t →
    (∀ k : Fin 16, t.key k = s.key k) ∧
    (t.dt ≠ s.dt → ∃ w x, fetchWord s = some w ∧ decodeWord w = some (.ldDtVx x) ∧ t.dt = s.getV x) ∧
    (t.st ≠ s.st → ∃ w x, fetchWord s = some w ∧ decodeWord w = some (.ldStVx x) ∧ t.st = s.getV x) ∧
    (∀ a, memRead t.mem a ≠ memRead s.mem a → ∃ w x, fetchWord s = some w ∧
      (decodeWord w = some (.ldB x) ∨ decodeWord w = some (.dumpRegs x)))

/-- R96, R183: the report influences no later step: the model's `report` field is an output that nothing reads (DECISION D22; log 3). -/
def Obligations.ReportIsNeverRead : Prop :=
  ∀ (s : State) (r : Report), step { s with report := r } = step s

/-- R28: no instruction reads ST: two states that differ in ST alone step to states that differ in ST at most. -/
def Obligations.SoundTimerIsNeverRead : Prop :=
  ∀ (s t : State) (b : Byte), step s = .next t →
    ∃ u, step { s with st := b } = .next u ∧ { u with st := t.st } = t

/-- R26: stack entries at index SP and above are observed by no step: states that agree on all else and on the live entries
step to such states. DECISION D18: SP is a count, entries are indexed from 0 (log 16). -/
def Obligations.DeadStackEntriesAreUnobservable : Prop :=
  ∀ s s' t : State, SameButDead s s' → step s = .next t → ∃ t', step s' = .next t' ∧ SameButDead t t'

/-! ### Invariants and reset -/

/-- Every step keeps memory in its canonical form with addresses in 0..4095 (R35, R51), from every state that has it. The form
is the model's way of holding memory (log 8). -/
def Obligations.StepKeepsMemoryCanonical : Prop :=
  ∀ s t : State, s.inv → step s = .next t → t.inv

/-- Every schedule of events, `load` and `reset` among them, keeps memory in its canonical form, and never faults or is
refused. The canonical form is the model's way of holding memory (log 8); that every list of events is a schedule, and that
`load` and `reset` may come at any time in it, are the model's readings of R6, R177, R195 and R199 (log 18, log 33). -/
def Obligations.SchedulesKeepMemoryCanonical : Prop :=
  ∀ (es : List Event) (s : State), s.inv → ∃ t, runEvents es s = .next t ∧ t.inv

/-- R34, R190: the `reset` event answers, from every state, and leaves every piece of state at its tabled value
(`ResetValues`); `State.reset` holds the same values. DECISIONS D4, D5, D6, D7 for the values of pc, the registers and the glyph
bytes (log 5, log 6, log 7). The model's own: `report` at `NONE` (log 3), `draws` left as it was by the event (log 4), and the
canonical form of memory, `inv` (log 8). -/
def Obligations.ResetLeavesTabledValues : Prop :=
  (∀ s : State, ∃ t, applyEvent .reset s = .next t ∧ ResetValues t ∧ t.draws = s.draws ∧ t.inv) ∧
  ResetValues State.reset ∧ State.reset.inv

/-! ### Control transfer (spec/41_flow.md) -/

/-- R101 `JP nnn`. -/
def Obligations.JumpAssignsPc : Prop :=
  ∀ (nnn : BitVec 12) (s : State), decodeWord (wordA 0x1 nnn) = some (.jp nnn) ∧
    ∃ t, exec (.jp nnn) s = .next t ∧ t.pc = nnn.setWidth 16 ∧ t.report = .none ∧ Frame { pc := true } s t

/-- R107 `JP V0,nnn`: the target is nnn + V0 as it is. DECISION D25: not reduced to 12 bits (log 23). -/
def Obligations.OffsetJumpAddsV0 : Prop :=
  ∀ (nnn : BitVec 12) (s : State), decodeWord (wordA 0xB nnn) = some (.jpV0 nnn) ∧
    ∃ t, exec (.jpV0 nnn) s = .next t ∧ t.pc.toNat = nnn.toNat + (s.getV 0).toNat ∧ t.report = .none ∧
      Frame { pc := true } s t

/-- R102 `CALL nnn`, taken and failed. DECISIONS D18 (entry SP is written) and D19 (a failed call falls through) (log 16,
log 17). -/
def Obligations.CallPushesReturnAddress : Prop :=
  ∀ (nnn : BitVec 12) (s : State), decodeWord (wordA 0x2 nnn) = some (.call nnn) ∧
    (s.sp.val < 16 → ∃ t, exec (.call nnn) s = .next t ∧ t.stack[s.sp.val]? = some s.pc ∧ t.sp.val = s.sp.val + 1 ∧
      t.pc = nnn.setWidth 16 ∧ t.report = .none ∧ (∀ j : Fin 16, j.val ≠ s.sp.val → t.stack[j] = s.stack[j]) ∧
      Frame { pc := true, stack := true, sp := true } s t) ∧
    (s.sp.val = 16 → exec (.call nnn) s = .next { s with report := .stackOverflow })

/-- R100 `RET`, taken and failed: the entry popped from is left as it was. DECISIONS D18 (entry SP - 1 is read) and D19 (a
failed return falls through) (log 16, log 17). -/
def Obligations.ReturnPopsPc : Prop :=
  decodeWord 0x00EE = some .ret ∧ ∀ s : State,
    (s.sp.val > 0 → ∃ t, exec .ret s = .next t ∧ s.stack[s.sp.val - 1]? = some t.pc ∧ t.sp.val = s.sp.val - 1 ∧
      t.report = .none ∧ (∀ j : Fin 16, t.stack[j] = s.stack[j]) ∧ Frame { pc := true, sp := true } s t) ∧
    (s.sp.val = 0 → exec .ret s = .next { s with report := .stackUnderflow })

/-- T8 (R100, R102): a call and a return with the same stack restore `pc` to the instruction after the call, and SP. DECISION D18
(log 16). -/
def Obligations.CallReturnRoundTrip : Prop :=
  ∀ (nnn : BitVec 12) (s t u : State), s.sp.val < 16 → exec (.call nnn) s = .next t → u.sp = t.sp → u.stack = t.stack →
    ∃ r, exec .ret u = .next r ∧ r.pc = s.pc ∧ r.sp = s.sp ∧ r.report = .none

/-- R103 `SE Vx,nn` and R104 `SNE Vx,nn`. -/
def Obligations.ImmediateSkips : Prop :=
  ∀ (x : Fin 16) (nn : Byte) (s : State),
    decodeWord (wordXB 0x3 x nn) = some (.seImm x nn) ∧ decodeWord (wordXB 0x4 x nn) = some (.sneImm x nn) ∧
    (∃ t, exec (.seImm x nn) s = .next t ∧ t.pc = (if s.getV x = nn then s.pc + 2 else s.pc) ∧ t.report = .none ∧
      Frame { pc := true } s t) ∧
    (∃ t, exec (.sneImm x nn) s = .next t ∧ t.pc = (if s.getV x = nn then s.pc else s.pc + 2) ∧ t.report = .none ∧
      Frame { pc := true } s t)

/-- R105 `SE Vx,Vy` and R106 `SNE Vx,Vy`; with n ≠ 0 the words of groups 5 and 9 are unknown. DECISIONS D2 (the opcode
numbers) and D13 (the strict reading of n, R77) (log 2). -/
def Obligations.RegisterSkips : Prop :=
  ∀ (x y : Fin 16) (s : State),
    decodeWord (wordXYN 0x5 x y 0) = some (.seReg x y) ∧ decodeWord (wordXYN 0x9 x y 0) = some (.sneReg x y) ∧
    (∀ n : BitVec 4, n ≠ 0 → decodeWord (wordXYN 0x5 x y n) = none ∧ decodeWord (wordXYN 0x9 x y n) = none) ∧
    (∃ t, exec (.seReg x y) s = .next t ∧ t.pc = (if s.getV x = s.getV y then s.pc + 2 else s.pc) ∧ t.report = .none ∧
      Frame { pc := true } s t) ∧
    (∃ t, exec (.sneReg x y) s = .next t ∧ t.pc = (if s.getV x = s.getV y then s.pc else s.pc + 2) ∧ t.report = .none ∧
      Frame { pc := true } s t)

/-! ### Immediates and random (spec/42_immediate.md) -/

/-- R110 `LD Vx,nn` and R111 `ADD Vx,nn`, which writes no flag. -/
def Obligations.ImmediateLoadAndAdd : Prop :=
  ∀ (x : Fin 16) (nn : Byte) (s : State),
    decodeWord (wordXB 0x6 x nn) = some (.ldImm x nn) ∧ decodeWord (wordXB 0x7 x nn) = some (.addImm x nn) ∧
    (∃ t, exec (.ldImm x nn) s = .next t ∧ t.getV x = nn ∧ t.report = .none ∧ Frame { regs := [x] } s t) ∧
    (∃ t, exec (.addImm x nn) s = .next t ∧ (t.getV x).toNat = ((s.getV x).toNat + nn.toNat) % 256 ∧ t.report = .none ∧
      Frame { regs := [x] } s t)

/-- R112 `LD I,nnn`. -/
def Obligations.IndexSet : Prop :=
  ∀ (nnn : BitVec 12) (s : State), decodeWord (wordA 0xA nnn) = some (.ldI nnn) ∧
    ∃ t, exec (.ldI nnn) s = .next t ∧ t.i.toNat = nnn.toNat ∧ t.report = .none ∧ Frame { index := true } s t

/-- R113 `RND Vx,nn`: the result is the next random byte AND nn, for whatever that byte is, and the next `RND` takes another.
DECISION D17; the counter `draws` is the model's own (log 4). -/
def Obligations.RandomIsMaskedFreeByte : Prop :=
  ∀ (x : Fin 16) (nn : Byte) (s : State), decodeWord (wordXB 0xC x nn) = some (.rnd x nn) ∧
    ∃ t, exec (.rnd x nn) s = .next t ∧ t.getV x = (Config.rndByte s.draws &&& nn) ∧ t.draws = s.draws + 1 ∧
      (∀ k, nn.getLsbD k = false → (t.getV x).getLsbD k = false) ∧ t.report = .none ∧
      Frame { regs := [x], draws := true } s t

/-! ### The ALU group (spec/43_alu.md) -/

/-- R121 `LD Vx,Vy`. -/
def Obligations.RegisterAssign : Prop :=
  ∀ (x y : Fin 16) (s : State), decodeWord (wordXYN 0x8 x y 0x0) = some (.ldReg x y) ∧
    ∃ t, exec (.ldReg x y) s = .next t ∧ t.getV x = s.getV y ∧ t.report = .none ∧ Frame { regs := [x] } s t

/-- R122 `OR`, R123 `AND`, R124 `XOR`, bit by bit; VF is left as it was unless x = 15. DECISION D15 (log 14). -/
def Obligations.LogicGroup : Prop :=
  ∀ (x y : Fin 16) (s : State), decodeWord (wordXYN 0x8 x y 0x1) = some (.orReg x y) ∧
    decodeWord (wordXYN 0x8 x y 0x2) = some (.andReg x y) ∧ decodeWord (wordXYN 0x8 x y 0x3) = some (.xorReg x y) ∧
    (∃ t, exec (.orReg x y) s = .next t ∧
      (∀ k, (t.getV x).getLsbD k = ((s.getV x).getLsbD k || (s.getV y).getLsbD k)) ∧ t.report = .none ∧
      Frame { regs := [x] } s t) ∧
    (∃ t, exec (.andReg x y) s = .next t ∧
      (∀ k, (t.getV x).getLsbD k = ((s.getV x).getLsbD k && (s.getV y).getLsbD k)) ∧ t.report = .none ∧
      Frame { regs := [x] } s t) ∧
    (∃ t, exec (.xorReg x y) s = .next t ∧
      (∀ k, (t.getV x).getLsbD k = ((s.getV x).getLsbD k != (s.getV y).getLsbD k)) ∧ t.report = .none ∧
      Frame { regs := [x] } s t)

/-- R125 `ADD Vx,Vy`: VF is the carry for every x and y, and V[x] the sum modulo 256 for x ≠ 15. That the flag is what
stays when x = 15 is R125's own corner case (the spec's choice by C7, D14; log 13). -/
def Obligations.AddWritesSumThenCarry : Prop :=
  ∀ (x y : Fin 16) (s : State), decodeWord (wordXYN 0x8 x y 0x4) = some (.addReg x y) ∧
    ∃ t, exec (.addReg x y) s = .next t ∧
      (x ≠ 15 → (t.getV x).toNat = ((s.getV x).toNat + (s.getV y).toNat) % 256) ∧
      (t.getV 15).toNat = (if (s.getV x).toNat + (s.getV y).toNat > 255 then 1 else 0) ∧ t.report = .none ∧
      Frame { regs := [x, 15] } s t

/-- R126 `SUB Vx,Vy` and R128 `SUBN Vx,Vy`: the flag is 1 when there is no borrow. The case x = 15 is the rules' own corner
case (the spec's choice by C7, D14; log 13). -/
def Obligations.SubtractsWriteDifferenceThenNoBorrow : Prop :=
  ∀ (x y : Fin 16) (s : State), decodeWord (wordXYN 0x8 x y 0x5) = some (.subReg x y) ∧
    decodeWord (wordXYN 0x8 x y 0x7) = some (.subnReg x y) ∧
    (∃ t, exec (.subReg x y) s = .next t ∧
      (x ≠ 15 → ((t.getV x).toNat : Int) = (((s.getV x).toNat : Int) - ((s.getV y).toNat : Int)) % 256) ∧
      (t.getV 15).toNat = (if (s.getV x).toNat ≥ (s.getV y).toNat then 1 else 0) ∧ t.report = .none ∧
      Frame { regs := [x, 15] } s t) ∧
    (∃ t, exec (.subnReg x y) s = .next t ∧
      (x ≠ 15 → ((t.getV x).toNat : Int) = (((s.getV y).toNat : Int) - ((s.getV x).toNat : Int)) % 256) ∧
      (t.getV 15).toNat = (if (s.getV y).toNat ≥ (s.getV x).toNat then 1 else 0) ∧ t.report = .none ∧
      Frame { regs := [x, 15] } s t)

/-- R127 `SHR Vx` and R129 `SHL Vx`: V[x] is shifted by one, whatever y is, and VF is the bit shifted out. The case x = 15
is the rules' own corner case (the spec's choice by C7, D14; log 13). -/
def Obligations.ShiftsWriteResultThenBitOut : Prop :=
  ∀ (x y : Fin 16) (s : State), decodeWord (wordXYN 0x8 x y 0x6) = some (.shr x y) ∧
    decodeWord (wordXYN 0x8 x y 0xE) = some (.shl x y) ∧
    (∃ t, exec (.shr x y) s = .next t ∧ (x ≠ 15 → (t.getV x).toNat = (s.getV x).toNat / 2) ∧
      (t.getV 15).toNat = (s.getV x).toNat % 2 ∧ t.report = .none ∧ Frame { regs := [x, 15] } s t) ∧
    (∃ t, exec (.shl x y) s = .next t ∧ (x ≠ 15 → (t.getV x).toNat = 2 * (s.getV x).toNat % 256) ∧
      (t.getV 15).toNat = (s.getV x).toNat / 128 ∧ t.report = .none ∧ Frame { regs := [x, 15] } s t)

/-! ### Display (spec/44_display.md) -/

/-- R131 `CLS`. -/
def Obligations.ClearSetsEveryPixelFalse : Prop :=
  decodeWord 0x00E0 = some .cls ∧ ∀ s : State, ∃ t, exec .cls s = .next t ∧ (∀ x y, pixel t.fb x y = false) ∧
    t.report = .none ∧ Frame { display := true } s t

/-- R132 `DRW Vx,Vy,n` when it raises nothing: exactly the pixels under a set bit of the sprite are toggled, wrapped modulo
64 and 32, and VF is 1 exactly when one of them was set. DECISIONS D10, D16 (bit 7 is column 0), D28 (n = 0) (log 11,
log 15, log 26). -/
def Obligations.DrawTogglesSpritePixels : Prop :=
  ∀ (x y : Fin 16) (n : Nat) (s : State), n ≤ 15 → (n = 0 ∨ s.i.toNat + n - 1 ≤ 4095) →
    decodeWord (wordXYN 0xD x y (BitVec.ofNat 4 n)) = some (.drw x y n) ∧
    ∃ t, exec (.drw x y n) s = .next t ∧
      (∀ px py, (spriteBit s.mem s.i.toNat n (s.getV x).toNat (s.getV y).toNat px py →
          pixel t.fb px py = !pixel s.fb px py) ∧
        (¬spriteBit s.mem s.i.toNat n (s.getV x).toNat (s.getV y).toNat px py →
          pixel t.fb px py = pixel s.fb px py)) ∧
      (t.getV 15 = 0x01 ∨ t.getV 15 = 0x00) ∧
      (t.getV 15 = 0x01 ↔ ∃ px py,
        spriteBit s.mem s.i.toNat n (s.getV x).toNat (s.getV y).toNat px py ∧ pixel s.fb px py = true) ∧
      t.report = .none ∧ Frame { regs := [15], display := true } s t

/-- R132 (f): the same sprite drawn twice at the same place restores the display, and the second draw reports a collision
exactly when the first set a pixel. The coordinates are the same when neither register is VF. DECISIONS D10 (the range
premise) and D28 (n = 0) (log 11, log 26). -/
def Obligations.DrawTwiceRestoresDisplay : Prop :=
  ∀ (x y : Fin 16) (n : Nat) (s t : State), n ≤ 15 → (n = 0 ∨ s.i.toNat + n - 1 ≤ 4095) → x ≠ 15 → y ≠ 15 →
    exec (.drw x y n) s = .next t →
    ∃ u, exec (.drw x y n) t = .next u ∧ (∀ px py, pixel u.fb px py = pixel s.fb px py) ∧
      (u.getV 15 = 0x01 ↔ ∃ px py, pixel s.fb px py = false ∧ pixel t.fb px py = true)

/-! ### Keypad and timers (spec/45_keypad_timers.md, spec/60_exceptions.md) -/

/-- R141 `SKP Vx` and R142 `SKNP Vx`: the latch that V[x] names, or `KEY_OOR` above 15 with no skip. DECISION D11 (log 12). -/
def Obligations.KeypadSkips : Prop :=
  ∀ (x : Fin 16) (s : State), decodeWord (wordXB 0xE x 0x9E) = some (.skp x) ∧
    decodeWord (wordXB 0xE x 0xA1) = some (.sknp x) ∧
    (∀ k : Fin 16, (s.getV x).toNat = k.val →
      (∃ t, exec (.skp x) s = .next t ∧ t.pc = (if s.key k = true then s.pc + 2 else s.pc) ∧ t.report = .none ∧
        Frame { pc := true } s t) ∧
      (∃ t, exec (.sknp x) s = .next t ∧ t.pc = (if s.key k = true then s.pc else s.pc + 2) ∧ t.report = .none ∧
        Frame { pc := true } s t)) ∧
    ((s.getV x).toNat > 15 → exec (.skp x) s = .next { s with report := .keyOor (s.getV x) } ∧
      exec (.sknp x) s = .next { s with report := .keyOor (s.getV x) })

/-- R143 `LD Vx,DT`, R144 `LD DT,Vx`, R145 `LD ST,Vx`. -/
def Obligations.TimerMoves : Prop :=
  ∀ (x : Fin 16) (s : State), decodeWord (wordXB 0xF x 0x07) = some (.ldVxDt x) ∧
    decodeWord (wordXB 0xF x 0x15) = some (.ldDtVx x) ∧ decodeWord (wordXB 0xF x 0x18) = some (.ldStVx x) ∧
    (∃ t, exec (.ldVxDt x) s = .next t ∧ t.getV x = s.dt ∧ t.report = .none ∧ Frame { regs := [x] } s t) ∧
    (∃ t, exec (.ldDtVx x) s = .next t ∧ t.dt = s.getV x ∧ t.report = .none ∧ Frame { dt := true } s t) ∧
    (∃ t, exec (.ldStVx x) s = .next t ∧ t.st = s.getV x ∧ t.report = .none ∧ Frame { st := true } s t)

/-- R146 `LD Vx,K`: the least latched key goes to V[x] and `pc` goes on; with no key latched `pc` goes back by 2 and nothing
else changes. -/
def Obligations.WaitKeyTakesLeastLatch : Prop :=
  ∀ (x : Fin 16) (s : State), decodeWord (wordXB 0xF x 0x0A) = some (.ldVxK x) ∧
    (∀ k : Fin 16, s.key k = true → (∀ j : Fin 16, j < k → s.key j = false) →
      ∃ t, exec (.ldVxK x) s = .next t ∧ (t.getV x).toNat = k.val ∧ t.report = .none ∧ Frame { regs := [x] } s t) ∧
    ((∀ k : Fin 16, s.key k = false) → exec (.ldVxK x) s = .next { s with pc := s.pc - 2, report := .none })

/-- T7 (R146, C6): a waiting step is a whole step that changes nothing: `pc` is again at the same instruction.
DECISION D2 for the opcode number (log 2). -/
def Obligations.WaitingStepChangesNothing : Prop :=
  ∀ s : State, Waiting s → step s = .next { s with report := .none }

/-- R175: `tick` takes 1 from each timer that is above 0 and changes nothing else. -/
def Obligations.TickCountsDownBothTimers : Prop :=
  ∀ s : State, ∃ t, applyEvent .tick s = .next t ∧ t.dt.toNat = s.dt.toNat - 1 ∧ t.st.toNat = s.st.toNat - 1 ∧
    t = { s with dt := t.dt, st := t.st }

/-- R140: a key event writes its own latch and nothing else. DECISION D21: levels only, no edge memory (log 19). -/
def Obligations.KeyEventsWriteOneLatch : Prop :=
  ∀ (k : Fin 16) (s : State),
    (∃ t, applyEvent (.keyDown k) s = .next t ∧ t = { s with keys := t.keys } ∧
      ∀ j, t.key j = (if j = k then true else s.key j)) ∧
    (∃ t, applyEvent (.keyUp k) s = .next t ∧ t = { s with keys := t.keys } ∧
      ∀ j, t.key j = (if j = k then false else s.key j))

/-! ### Index and memory (spec/46_index_memory.md, spec/20_memory.md) -/

/-- R150 `ADD I,Vx` and R151 `LD F,Vx`. DECISIONS D24, D25: V[x] is not reduced to a digit, I is 16 bits wide (log 22,
log 23). -/
def Obligations.IndexArithmetic : Prop :=
  ∀ (x : Fin 16) (s : State), decodeWord (wordXB 0xF x 0x1E) = some (.addI x) ∧
    decodeWord (wordXB 0xF x 0x29) = some (.ldF x) ∧
    (∃ t, exec (.addI x) s = .next t ∧ t.i.toNat = (s.i.toNat + (s.getV x).toNat) % 65536 ∧ t.report = .none ∧
      Frame { index := true } s t) ∧
    (∃ t, exec (.ldF x) s = .next t ∧ t.i.toNat = (s.getV x).toNat * 5 ∧ t.report = .none ∧ Frame { index := true } s t)

/-- R152 `LD B,Vx` in range: hundreds, tens, units at I, I + 1, I + 2, and no other byte. DECISION D10 (log 11). -/
def Obligations.DecimalStore : Prop :=
  ∀ (x : Fin 16) (s : State), decodeWord (wordXB 0xF x 0x33) = some (.ldB x) ∧
    (s.i.toNat + 2 ≤ 4095 → ∃ t, exec (.ldB x) s = .next t ∧
      (memRead t.mem s.i.toNat).toNat = (s.getV x).toNat / 100 ∧
      (memRead t.mem (s.i.toNat + 1)).toNat = (s.getV x).toNat / 10 % 10 ∧
      (memRead t.mem (s.i.toNat + 2)).toNat = (s.getV x).toNat % 10 ∧ t.report = .none ∧
      Frame { memBase := s.i.toNat, memCount := 3 } s t)

/-- R153 `LD [I],Vx` in range: V0..Vx to I..I + x, and no other byte; I is unchanged. DECISIONS D10, D15 (log 11, log 14). -/
def Obligations.RegisterDump : Prop :=
  ∀ (x : Fin 16) (s : State), decodeWord (wordXB 0xF x 0x55) = some (.dumpRegs x) ∧
    (s.i.toNat + x.val ≤ 4095 → ∃ t, exec (.dumpRegs x) s = .next t ∧
      (∀ k : Fin 16, k ≤ x → memRead t.mem (s.i.toNat + k.val) = s.getV k) ∧ t.report = .none ∧
      Frame { memBase := s.i.toNat, memCount := x.val + 1 } s t)

/-- R154 `LD Vx,[I]` in range: V0..Vx from I..I + x, registers above x untouched; I is unchanged. DECISION D10 (log 11). -/
def Obligations.RegisterLoad : Prop :=
  ∀ (x : Fin 16) (s : State), decodeWord (wordXB 0xF x 0x65) = some (.loadRegs x) ∧
    (s.i.toNat + x.val ≤ 4095 → ∃ t, exec (.loadRegs x) s = .next t ∧
      (∀ k : Fin 16, k ≤ x → t.getV k = memRead s.mem (s.i.toNat + k.val)) ∧ t.report = .none ∧
      (∀ r : Fin 16, x < r → t.getV r = s.getV r) ∧
      Frame { regs := (List.finRange 16).filter (fun k => decide (k ≤ x)) } s t)

/-- T9 (R153, R154): a dump and a load from the same I restore the dumped values, whatever the registers held between.
DECISION D10 for the range premise (log 11). -/
def Obligations.DumpLoadRoundTrip : Prop :=
  ∀ (x : Fin 16) (s t u : State), s.i.toNat + x.val ≤ 4095 → exec (.dumpRegs x) s = .next t → u.mem = t.mem → u.i = s.i →
    ∃ r, exec (.loadRegs x) u = .next r ∧ ∀ k : Fin 16, k ≤ x → r.getV k = s.getV k

/-- R64, R54: bytes stored by a dump are seen by the next fetch from their address, V0 as the high byte and V1 as the low.
DECISION D10 for the range premise (log 11). -/
def Obligations.StoreIsSeenByNextFetch : Prop :=
  ∀ (x : Fin 16) (s t : State), 1 ≤ x.val → s.i.toNat + x.val ≤ 4095 → exec (.dumpRegs x) s = .next t →
    ∃ w, fetchWord { t with pc := s.i } = some w ∧ w.toNat = (s.getV 0).toNat * 256 + (s.getV 1).toNat

/-! ### Load, launch and the end of a run (spec/70_reset_and_hazards.md) -/

/-- R195: an accepted image is written from `PROGRAM_BASE` upward and nothing else changes. -/
def Obligations.LoadWritesImage : Prop :=
  ∀ (image : List Byte) (s : State), 1 ≤ image.length → image.length ≤ 3584 →
    ∃ t, applyEvent (.load image) s = .next t ∧
      (∀ k, k < image.length → image[k]? = some (memRead t.mem (Config.programBase + k))) ∧
      (∀ a, ¬(Config.programBase ≤ a ∧ a < Config.programBase + image.length) → memRead t.mem a = memRead s.mem a) ∧
      t.report = .none ∧ t = { s with mem := t.mem, report := .none }

/-- R196: an empty or oversize image is rejected with no byte written, and the launch is refused. DECISION D23 (log 21). -/
def Obligations.RejectedLoadWritesNothing : Prop :=
  ∀ (image : List Byte) (s : State), image.length = 0 ∨ image.length > 3584 →
    applyEvent (.load image) s = .next { s with report := .loadRejected image.length } ∧
    launch image s = .refused (.launchRejected image.length)

/-- R197: a launch leaves what a program may assume at its first instruction: the reset state with its image at 0x200, `pc`
there. DECISIONS D4, D5, D6 (log 5, log 6). -/
def Obligations.LaunchLeavesBootState : Prop :=
  ∀ (image : List Byte) (s : State), 1 ≤ image.length → image.length ≤ 3584 →
    ∃ t, launch image s = .next t ∧ t = { State.reset with mem := t.mem, draws := s.draws } ∧ t.pc = 0x0200 ∧
      (∀ k, k < image.length → image[k]? = some (memRead t.mem (0x200 + k))) ∧
      (∀ a, ¬(0x200 ≤ a ∧ a < 0x200 + image.length) → memRead t.mem a = memRead State.reset.mem a)

/-- R198: at a self-jump every step leaves the whole state unchanged. DECISION D29: this is the model's end of a run
(log 27). -/
def Obligations.SelfJumpIsFixedPoint : Prop :=
  ∀ s : State, Ended s → step s = .next { s with report := .none }
end

