-- ==== Sys2Proof/Laws/Decode.lean ====
section
/-! SUPPORT. Laws/Decode.lean: the fields of a word and of the words the encoder builds (spec/30_encoding.md R71, R72), and
the rows of the opcode map (R75). -/

namespace Sys2Proof

/-! ### Words and fields as numbers -/

theorem toNat_wordA (g : BitVec 4) (nnn : BitVec 12) : (wordA g nnn).toNat = g.toNat * 4096 + nnn.toNat := by
  simp only [wordA, BitVec.toNat_append]
  rw [← Nat.shiftLeft_add_eq_or_of_lt nnn.isLt, Nat.shiftLeft_eq]

theorem toNat_wordXB (g : BitVec 4) (x : Fin 16) (nn : Byte) :
    (wordXB g x nn).toNat = g.toNat * 4096 + x.val * 256 + nn.toNat := by
  have h : wordXB g x nn = wordA g (BitVec.ofNat 4 x ++ nn) := rfl
  have hx := x.isLt
  rw [h, toNat_wordA, BitVec.toNat_append, ← Nat.shiftLeft_add_eq_or_of_lt nn.isLt, Nat.shiftLeft_eq,
    BitVec.toNat_ofNat, Nat.mod_eq_of_lt (by omega)]
  omega

theorem toNat_wordXYN (g : BitVec 4) (x y : Fin 16) (n : BitVec 4) :
    (wordXYN g x y n).toNat = g.toNat * 4096 + x.val * 256 + y.val * 16 + n.toNat := by
  have h : wordXYN g x y n = wordXB g x (BitVec.ofNat 4 y ++ n) := rfl
  have hy := y.isLt
  rw [h, toNat_wordXB, BitVec.toNat_append, ← Nat.shiftLeft_add_eq_or_of_lt n.isLt, Nat.shiftLeft_eq,
    BitVec.toNat_ofNat, Nat.mod_eq_of_lt (by omega)]
  omega

theorem toNat_fieldG (w : Word) : (fieldG w).toNat = w.toNat / 4096 := by
  have := w.isLt
  simp only [fieldG, BitVec.extractLsb'_toNat, Nat.shiftRight_eq_div_pow]; omega

theorem val_fieldX (w : Word) : (fieldX w).val = w.toNat / 256 % 16 := by
  simp only [fieldX, BitVec.extractLsb'_toNat, Nat.shiftRight_eq_div_pow]

theorem val_fieldY (w : Word) : (fieldY w).val = w.toNat / 16 % 16 := by
  simp only [fieldY, BitVec.extractLsb'_toNat, Nat.shiftRight_eq_div_pow]

theorem toNat_fieldN (w : Word) : (fieldN w).toNat = w.toNat % 16 := by
  simp only [fieldN, BitVec.extractLsb'_toNat, Nat.shiftRight_zero]

theorem toNat_fieldNN (w : Word) : (fieldNN w).toNat = w.toNat % 256 := by
  simp only [fieldNN, BitVec.extractLsb'_toNat, Nat.shiftRight_zero]

theorem toNat_fieldNNN (w : Word) : (fieldNNN w).toNat = w.toNat % 4096 := by
  simp only [fieldNNN, BitVec.extractLsb'_toNat, Nat.shiftRight_zero]

theorem toNat_wordOfBytes (hi lo : Byte) : (wordOfBytes hi lo).toNat = hi.toNat * 256 + lo.toNat := by
  simp only [wordOfBytes, BitVec.toNat_append]
  rw [← Nat.shiftLeft_add_eq_or_of_lt lo.isLt, Nat.shiftLeft_eq]

theorem toNat_hiByte (w : Word) : (hiByte w).toNat = w.toNat / 256 := by
  have := w.isLt
  simp only [hiByte, BitVec.extractLsb'_toNat, Nat.shiftRight_eq_div_pow]; omega

theorem toNat_loByte (w : Word) : (loByte w).toNat = w.toNat % 256 := by
  simp only [loByte, BitVec.extractLsb'_toNat, Nat.shiftRight_zero]

/-! ### The fields of an encoded word -/

section A
variable (g : BitVec 4) (nnn : BitVec 12)
@[simp] theorem fieldG_wordA : fieldG (wordA g nnn) = g := by
  apply BitVec.eq_of_toNat_eq
  have := g.isLt; have := nnn.isLt
  rw [toNat_fieldG, toNat_wordA]; omega
@[simp] theorem fieldNNN_wordA : fieldNNN (wordA g nnn) = nnn := by
  apply BitVec.eq_of_toNat_eq
  have := nnn.isLt
  rw [toNat_fieldNNN, toNat_wordA]; omega
end A

section XB
variable (g : BitVec 4) (x : Fin 16) (nn : Byte)
@[simp] theorem fieldG_wordXB : fieldG (wordXB g x nn) = g := by
  apply BitVec.eq_of_toNat_eq
  have := x.isLt; have := nn.isLt
  rw [toNat_fieldG, toNat_wordXB]; omega
@[simp] theorem fieldX_wordXB : fieldX (wordXB g x nn) = x := by
  apply Fin.ext
  have := x.isLt; have := nn.isLt
  rw [val_fieldX, toNat_wordXB]; omega
@[simp] theorem fieldNN_wordXB : fieldNN (wordXB g x nn) = nn := by
  apply BitVec.eq_of_toNat_eq
  have := nn.isLt
  rw [toNat_fieldNN, toNat_wordXB]; omega
end XB

section XYN
variable (g : BitVec 4) (x y : Fin 16) (n : BitVec 4)
@[simp] theorem fieldG_wordXYN : fieldG (wordXYN g x y n) = g := by
  apply BitVec.eq_of_toNat_eq
  have := x.isLt; have := y.isLt; have := n.isLt
  rw [toNat_fieldG, toNat_wordXYN]; omega
@[simp] theorem fieldX_wordXYN : fieldX (wordXYN g x y n) = x := by
  apply Fin.ext
  have := x.isLt; have := y.isLt; have := n.isLt
  rw [val_fieldX, toNat_wordXYN]; omega
@[simp] theorem fieldY_wordXYN : fieldY (wordXYN g x y n) = y := by
  apply Fin.ext
  have := y.isLt; have := n.isLt
  rw [val_fieldY, toNat_wordXYN]; omega
@[simp] theorem fieldN_wordXYN : fieldN (wordXYN g x y n) = n := by
  apply BitVec.eq_of_toNat_eq
  have := n.isLt
  rw [toNat_fieldN, toNat_wordXYN]; omega
end XYN

/-! ### Bytes of a word -/

@[simp] theorem wordOfBytes_hi_lo (w : Word) : wordOfBytes (hiByte w) (loByte w) = w := by
  apply BitVec.eq_of_toNat_eq
  rw [toNat_wordOfBytes, toNat_hiByte, toNat_loByte]; omega

/-- The decoder on the two bytes of a word (R70). -/
theorem decode_bytes (hi lo : Byte) (rest : List Byte) :
    decode (hi :: lo :: rest) =
      match decodeWord (wordOfBytes hi lo) with
      | some i => .ok (i, rest)
      | none => .error (.unknown (wordOfBytes hi lo)) := rfl

theorem decode_ok_iff {hi lo : Byte} {rest : List Byte} {i : Instr} :
    decode (hi :: lo :: rest) = .ok (i, rest) ↔ decodeWord (wordOfBytes hi lo) = some i := by
  rw [decode_bytes]
  cases decodeWord (wordOfBytes hi lo) <;> simp

theorem decode_unknown_iff {hi lo : Byte} {rest : List Byte} {w : Word} :
    decode (hi :: lo :: rest) = .error (.unknown w) ↔
      decodeWord (wordOfBytes hi lo) = none ∧ w = wordOfBytes hi lo := by
  rw [decode_bytes]
  cases decodeWord (wordOfBytes hi lo) <;> simp [eq_comm]

/-! ### The opcode map -/

/-- There are 34 rows (R76). -/
theorem opcodeRows_length : opcodeRows.length = 34 := by decide

/-- No word matches two rows (R74): any two rows differ in a bit that both fix. -/
theorem opcodeRows_disjoint :
    opcodeRows.Pairwise (fun r q => r.pattern &&& (r.mask &&& q.mask) ≠ q.pattern &&& (r.mask &&& q.mask)) := by
  decide

/-- Every instruction's row is a row of the map. -/
theorem opcodeRow_mem (i : Instr) : opcodeRow i ∈ opcodeRows := by
  cases i <;> simp [opcodeRows, opcodeWitnesses, opcodeRow]

end Sys2Proof
end

