-- ==== Sys2Proof/Laws/Display.lean ====
section
/-! SUPPORT. Laws/Display.lean: the display buffer's operations (spec/44_display.md R130). -/

namespace Sys2Proof.Machine

@[simp] theorem pixel_blankFb (x : Fin 64) (y : Fin 32) : pixel blankFb x y = false := by
  simp [pixel, blankFb]

/-- A toggle negates its own pixel and no other (R130). -/
theorem pixel_togglePixel (fb : Framebuffer) (x x' : Fin 64) (y y' : Fin 32) :
    pixel (togglePixel fb x y) x' y' = if x' = x ∧ y' = y then !pixel fb x y else pixel fb x' y' := by
  simp only [pixel, togglePixel, Fin.getElem_fin, Vector.getElem_set]
  by_cases hx : x.val = x'.val
  · have hx' : x' = x := Fin.ext hx.symm
    subst hx'
    by_cases hy : y.val = y'.val
    · have hy' : y' = y := Fin.ext hy.symm
      subst hy'; simp
    · have hy' : ¬ y' = y := fun h => hy (by rw [h])
      simp [hy, hy']
  · have hx' : ¬ x' = x := fun h => hx (by rw [h])
    simp [hx, hx']

/-- A pixel toggled twice is back where it was (R130). -/
theorem togglePixel_twice (fb : Framebuffer) (x x' : Fin 64) (y y' : Fin 32) :
    pixel (togglePixel (togglePixel fb x y) x y) x' y' = pixel fb x' y' := by
  simp only [pixel_togglePixel]
  by_cases h : x' = x ∧ y' = y
  · simp [h]
  · simp [h]

end Sys2Proof.Machine
end

