-- ==== Sys2Proof/Laws/Memory.lean ====
section
/-! SUPPORT. Laws/Memory.lean: reads after writes, and that every memory operation keeps the canonical form. -/

namespace Sys2Proof.Machine

/-- A byte that no cell lists reads as the reset contents. -/
theorem memRead_of_not_mem {m : Memory} {a : Nat} (h : ∀ c ∈ m, c.1 ≠ a) : memRead m a = memDefault a := by
  induction m with
  | nil => rfl
  | cons c rest ih =>
    have h0 := h c (by simp)
    simp only [memRead, h0, if_false]
    exact ih (fun d hd => h d (by simp [hd]))

theorem memRead_filter (m : Memory) (a a' : Nat) :
    memRead (m.filter (fun c => c.1 != a)) a' = if a' = a then memDefault a else memRead m a' := by
  induction m with
  | nil => by_cases h : a' = a <;> simp [memRead, h]
  | cons c rest ih =>
    by_cases hc : c.1 = a
    · rw [List.filter_cons_of_neg (by simp [hc]), ih]
      by_cases h : a' = a
      · simp [h]
      · have : c.1 ≠ a' := by omega
        simp [memRead, h, this]
    · rw [List.filter_cons_of_pos (by simp [hc])]
      by_cases h : a' = a
      · subst h; simpa [memRead, hc] using ih
      · by_cases hca : c.1 = a'
        · simp [memRead, hca, h]
        · simpa [memRead, hca, h] using ih

theorem memRead_memInsert {m : Memory} {a : Nat} (b : Byte) (h : ∀ c ∈ m, c.1 ≠ a) (a' : Nat) :
    memRead (memInsert a b m) a' = if a' = a then b else memRead m a' := by
  induction m with
  | nil => simp [memInsert, memRead, eq_comm]
  | cons c rest ih =>
    have h0 := h c (by simp)
    have ih := ih (fun d hd => h d (by simp [hd]))
    simp only [memInsert]
    split
    · by_cases e : a' = a
      · simp [memRead, e]
      · have : a ≠ a' := fun h => e h.symm
        simp [memRead, e, this]
    · simp only [memRead, ih]
      by_cases e : a' = a
      · subst e; simp [h0]
      · simp [e]

/-- A read after a write gives the byte written, and every other address reads as before (R52, R62). -/
theorem memRead_memWrite (m : Memory) (a : Nat) (b : Byte) (a' : Nat) :
    memRead (memWrite m a b) a' = if a' = a then b else memRead m a' := by
  simp only [memWrite]
  split
  · rename_i hb
    rw [memRead_filter]
    split <;> simp_all
  · rw [memRead_memInsert b (by simp)]
    split
    · rfl
    · rename_i h; rw [memRead_filter]; simp [h]

theorem memWrite_same (m : Memory) (a : Nat) (b : Byte) : memRead (memWrite m a b) a = b := by
  simp [memRead_memWrite]

theorem memWrite_other (m : Memory) {a a' : Nat} (b : Byte) (h : a' ≠ a) :
    memRead (memWrite m a b) a' = memRead m a' := by
  simp [memRead_memWrite, h]

/-- What a run of byte writes leaves at every address (R52, R56). -/
theorem memRead_writeBytes (bs : List Byte) (m : Memory) (base a : Nat) :
    memRead (writeBytes m base bs) a =
      if base ≤ a then (bs[a - base]?).getD (memRead m a) else memRead m a := by
  induction bs generalizing m base with
  | nil => simp [writeBytes]
  | cons b bs ih =>
    simp only [writeBytes, ih, memRead_memWrite]
    rcases Nat.lt_trichotomy a base with h | h | h
    · have h1 : ¬ base + 1 ≤ a := by omega
      have h2 : ¬ base ≤ a := by omega
      have h3 : a ≠ base := by omega
      simp [h1, h2, h3]
    · subst h
      have h1 : ¬ a + 1 ≤ a := by omega
      simp [h1]
    · have h1 : base + 1 ≤ a := by omega
      have h2 : base ≤ a := by omega
      have h3 : a ≠ base := by omega
      obtain ⟨k, hk⟩ : ∃ k, a - base = k + 1 := ⟨a - base - 1, by omega⟩
      have h4 : a - (base + 1) = k := by omega
      simp [h1, h2, h3, hk, h4]

theorem memRead_writeBytes_outside {bs : List Byte} (m : Memory) {base a : Nat}
    (h : ¬(base ≤ a ∧ a < base + bs.length)) : memRead (writeBytes m base bs) a = memRead m a := by
  rw [memRead_writeBytes]
  split
  · have : bs.length ≤ a - base := by omega
    simp [List.getElem?_eq_none this]
  · rfl

theorem memRead_writeBytes_inside {bs : List Byte} (m : Memory) (base : Nat) {k : Nat} (h : k < bs.length) :
    memRead (writeBytes m base bs) (base + k) = bs[k] := by
  rw [memRead_writeBytes]
  simp [h]

@[simp] theorem readBytes_length (m : Memory) (base count : Nat) : (readBytes m base count).length = count := by
  simp [readBytes]

theorem readBytes_getElem (m : Memory) (base count k : Nat) (h : k < (readBytes m base count).length) :
    (readBytes m base count)[k] = memRead m (base + k) := by
  simp [readBytes]

theorem mem_memInsert {a : Nat} {b : Byte} {m : Memory} {c : Host.Cell} :
    c ∈ memInsert a b m ↔ c = (a, b) ∨ c ∈ m := by
  induction m with
  | nil => simp [memInsert]
  | cons d rest ih =>
    simp only [memInsert]
    split
    · simp
    · simp only [List.mem_cons, ih]; tauto

theorem memInsert_sorted {a : Nat} {b : Byte} {m : Memory} (hs : m.Pairwise (fun c d => c.1 < d.1))
    (h : ∀ c ∈ m, c.1 ≠ a) : (memInsert a b m).Pairwise (fun c d => c.1 < d.1) := by
  induction m with
  | nil => simp [memInsert]
  | cons d rest ih =>
    have h0 := h d (by simp)
    rw [List.pairwise_cons] at hs
    simp only [memInsert]
    split
    · rename_i hlt
      refine List.pairwise_cons.2 ⟨?_, List.pairwise_cons.2 hs⟩
      intro c hc
      rcases List.mem_cons.1 hc with rfl | hc
      · exact hlt
      · exact Nat.lt_trans hlt (hs.1 c hc)
    · rename_i hge
      refine List.pairwise_cons.2 ⟨?_, ih hs.2 (fun c hc => h c (by simp [hc]))⟩
      intro c hc
      rcases mem_memInsert.1 hc with rfl | hc
      · exact Nat.lt_of_le_of_ne (Nat.le_of_not_lt hge) h0
      · exact hs.1 c hc

/-- Writing one byte at an address of the space keeps the canonical form. -/
theorem memWrite_wf {m : Memory} (h : Memory.wf m) {a : Nat} (ha : a < Config.memSize) (b : Byte) :
    Memory.wf (memWrite m a b) := by
  have hf : Memory.wf (m.filter (fun c => c.1 != a)) :=
    ⟨h.1.filter _, fun c hc => h.2 c (List.mem_filter.1 hc).1⟩
  simp only [memWrite]
  split
  · exact hf
  · rename_i hb
    refine ⟨memInsert_sorted hf.1 (by simp), ?_⟩
    intro c hc
    rcases mem_memInsert.1 hc with rfl | hc
    · exact ⟨ha, hb⟩
    · exact hf.2 c hc

/-- Writing bytes at addresses of the space keeps the canonical form. -/
theorem writeBytes_wf {bs : List Byte} {m : Memory} {base : Nat} (h : Memory.wf m)
    (hb : base + bs.length ≤ Config.memSize) : Memory.wf (writeBytes m base bs) := by
  induction bs generalizing m base with
  | nil => exact h
  | cons b bs ih =>
    simp only [List.length_cons] at hb
    exact ih (memWrite_wf h (by omega) b) (by omega)

/-- The range test of R60, as arithmetic. -/
theorem rangeOk_iff (base count : Nat) : rangeOk base count = true ↔ count = 0 ∨ base + count ≤ 4096 := by
  simp only [rangeOk, Bool.or_eq_true, beq_iff_eq, decide_eq_true_eq]
  exact Iff.rfl

end Sys2Proof.Machine
end

