-- ==== Sys2Proof/Laws/State.lean ====
section
/-! SUPPORT. Laws/State.lean: one lemma per field per update of the state. -/

namespace Sys2Proof.Machine

section SetV
variable (s : State) (x : Fin 16) (b : Byte)
@[simp] theorem setV_i : (s.setV x b).i = s.i := rfl
@[simp] theorem setV_pc : (s.setV x b).pc = s.pc := rfl
@[simp] theorem setV_stack : (s.setV x b).stack = s.stack := rfl
@[simp] theorem setV_sp : (s.setV x b).sp = s.sp := rfl
@[simp] theorem setV_dt : (s.setV x b).dt = s.dt := rfl
@[simp] theorem setV_st : (s.setV x b).st = s.st := rfl
@[simp] theorem setV_fb : (s.setV x b).fb = s.fb := rfl
@[simp] theorem setV_keys : (s.setV x b).keys = s.keys := rfl
@[simp] theorem setV_mem : (s.setV x b).mem = s.mem := rfl
@[simp] theorem setV_report : (s.setV x b).report = s.report := rfl
@[simp] theorem setV_draws : (s.setV x b).draws = s.draws := rfl
@[simp] theorem setV_key (k : Fin 16) : (s.setV x b).key k = s.key k := rfl

/-- Reading a register after a register write (R10). -/
theorem getV_setV (r : Fin 16) : (s.setV x b).getV r = if r = x then b else s.getV r := by
  simp only [State.getV, State.setV, Fin.getElem_fin, Vector.getElem_set, Fin.ext_iff, eq_comm]

@[simp] theorem getV_setV_self : (s.setV x b).getV x = b := by simp [getV_setV]

theorem getV_setV_of_ne {r : Fin 16} (h : r ≠ x) : (s.setV x b).getV r = s.getV r := by
  simp [getV_setV, h]
end SetV

section SetI
variable (s : State) (a : Word)
@[simp] theorem setI_v : (s.setI a).v = s.v := rfl
@[simp] theorem setI_i : (s.setI a).i = a := rfl
@[simp] theorem setI_pc : (s.setI a).pc = s.pc := rfl
@[simp] theorem setI_stack : (s.setI a).stack = s.stack := rfl
@[simp] theorem setI_sp : (s.setI a).sp = s.sp := rfl
@[simp] theorem setI_dt : (s.setI a).dt = s.dt := rfl
@[simp] theorem setI_st : (s.setI a).st = s.st := rfl
@[simp] theorem setI_fb : (s.setI a).fb = s.fb := rfl
@[simp] theorem setI_keys : (s.setI a).keys = s.keys := rfl
@[simp] theorem setI_mem : (s.setI a).mem = s.mem := rfl
@[simp] theorem setI_report : (s.setI a).report = s.report := rfl
@[simp] theorem setI_draws : (s.setI a).draws = s.draws := rfl
@[simp] theorem setI_getV (r : Fin 16) : (s.setI a).getV r = s.getV r := rfl
@[simp] theorem setI_key (k : Fin 16) : (s.setI a).key k = s.key k := rfl
end SetI

section SetPc
variable (s : State) (a : Word)
@[simp] theorem setPc_v : (s.setPc a).v = s.v := rfl
@[simp] theorem setPc_i : (s.setPc a).i = s.i := rfl
@[simp] theorem setPc_pc : (s.setPc a).pc = a := rfl
@[simp] theorem setPc_stack : (s.setPc a).stack = s.stack := rfl
@[simp] theorem setPc_sp : (s.setPc a).sp = s.sp := rfl
@[simp] theorem setPc_dt : (s.setPc a).dt = s.dt := rfl
@[simp] theorem setPc_st : (s.setPc a).st = s.st := rfl
@[simp] theorem setPc_fb : (s.setPc a).fb = s.fb := rfl
@[simp] theorem setPc_keys : (s.setPc a).keys = s.keys := rfl
@[simp] theorem setPc_mem : (s.setPc a).mem = s.mem := rfl
@[simp] theorem setPc_report : (s.setPc a).report = s.report := rfl
@[simp] theorem setPc_draws : (s.setPc a).draws = s.draws := rfl
@[simp] theorem setPc_getV (r : Fin 16) : (s.setPc a).getV r = s.getV r := rfl
@[simp] theorem setPc_key (k : Fin 16) : (s.setPc a).key k = s.key k := rfl
end SetPc

section SetDt
variable (s : State) (b : Byte)
@[simp] theorem setDt_v : (s.setDt b).v = s.v := rfl
@[simp] theorem setDt_i : (s.setDt b).i = s.i := rfl
@[simp] theorem setDt_pc : (s.setDt b).pc = s.pc := rfl
@[simp] theorem setDt_stack : (s.setDt b).stack = s.stack := rfl
@[simp] theorem setDt_sp : (s.setDt b).sp = s.sp := rfl
@[simp] theorem setDt_dt : (s.setDt b).dt = b := rfl
@[simp] theorem setDt_st : (s.setDt b).st = s.st := rfl
@[simp] theorem setDt_fb : (s.setDt b).fb = s.fb := rfl
@[simp] theorem setDt_keys : (s.setDt b).keys = s.keys := rfl
@[simp] theorem setDt_mem : (s.setDt b).mem = s.mem := rfl
@[simp] theorem setDt_report : (s.setDt b).report = s.report := rfl
@[simp] theorem setDt_draws : (s.setDt b).draws = s.draws := rfl
@[simp] theorem setDt_getV (r : Fin 16) : (s.setDt b).getV r = s.getV r := rfl
@[simp] theorem setDt_key (k : Fin 16) : (s.setDt b).key k = s.key k := rfl
end SetDt

section SetSt
variable (s : State) (b : Byte)
@[simp] theorem setSt_v : (s.setSt b).v = s.v := rfl
@[simp] theorem setSt_i : (s.setSt b).i = s.i := rfl
@[simp] theorem setSt_pc : (s.setSt b).pc = s.pc := rfl
@[simp] theorem setSt_stack : (s.setSt b).stack = s.stack := rfl
@[simp] theorem setSt_sp : (s.setSt b).sp = s.sp := rfl
@[simp] theorem setSt_dt : (s.setSt b).dt = s.dt := rfl
@[simp] theorem setSt_st : (s.setSt b).st = b := rfl
@[simp] theorem setSt_fb : (s.setSt b).fb = s.fb := rfl
@[simp] theorem setSt_keys : (s.setSt b).keys = s.keys := rfl
@[simp] theorem setSt_mem : (s.setSt b).mem = s.mem := rfl
@[simp] theorem setSt_report : (s.setSt b).report = s.report := rfl
@[simp] theorem setSt_draws : (s.setSt b).draws = s.draws := rfl
@[simp] theorem setSt_getV (r : Fin 16) : (s.setSt b).getV r = s.getV r := rfl
@[simp] theorem setSt_key (k : Fin 16) : (s.setSt b).key k = s.key k := rfl
end SetSt

section SkipIf
variable (s : State) (c : Bool)
/-- A skip moves `pc` by 2 when taken, and nothing else ever (R108). -/
theorem skipIf_eq : s.skipIf c = s.setPc (if c then s.pc + 2 else s.pc) := by
  cases c <;> rfl
theorem skipIf_pc : (s.skipIf c).pc = if c then s.pc + 2 else s.pc := by simp [skipIf_eq]
end SkipIf

/-- The fetch's advance is a `pc` write (R91). -/
theorem advancePc_eq (s : State) : s.advancePc = s.setPc (s.pc + 2) := rfl

/-- The rewind is a `pc` write (R146). -/
theorem rewindPc_eq (s : State) : s.rewindPc = s.setPc (s.pc - 2) := rfl

section WriteResultFlag
variable (s : State) (x : Fin 16) (r : Byte) (c : Bool)
@[simp] theorem writeResultFlag_i : (s.writeResultFlag x r c).i = s.i := rfl
@[simp] theorem writeResultFlag_pc : (s.writeResultFlag x r c).pc = s.pc := rfl
@[simp] theorem writeResultFlag_stack : (s.writeResultFlag x r c).stack = s.stack := rfl
@[simp] theorem writeResultFlag_sp : (s.writeResultFlag x r c).sp = s.sp := rfl
@[simp] theorem writeResultFlag_dt : (s.writeResultFlag x r c).dt = s.dt := rfl
@[simp] theorem writeResultFlag_st : (s.writeResultFlag x r c).st = s.st := rfl
@[simp] theorem writeResultFlag_fb : (s.writeResultFlag x r c).fb = s.fb := rfl
@[simp] theorem writeResultFlag_keys : (s.writeResultFlag x r c).keys = s.keys := rfl
@[simp] theorem writeResultFlag_mem : (s.writeResultFlag x r c).mem = s.mem := rfl
@[simp] theorem writeResultFlag_report : (s.writeResultFlag x r c).report = s.report := rfl
@[simp] theorem writeResultFlag_draws : (s.writeResultFlag x r c).draws = s.draws := rfl

/-- The flag is written last, so VF always ends as the flag (R22, R120). -/
theorem getV_writeResultFlag (q : Fin 16) :
    (s.writeResultFlag x r c).getV q = if q = vf then flagByte c else if q = x then r else s.getV q := by
  simp [State.writeResultFlag, getV_setV]
end WriteResultFlag

end Sys2Proof.Machine
end

