-- ==== Sys2Proof/Laws/Ops.lean ====
section
/-! SUPPORT. Laws/Ops.lean: for each shared operation, everything it can do. -/

namespace Sys2Proof.Machine

/-! ### Ending an instruction -/

theorem complete_eq_next {s t : State} : complete s = .next t ↔ t = { s with report := .none } := by
  simp [complete, eq_comm]

theorem raise_eq_next {c : Report} {s t : State} : raise c s = .next t ↔ t = { s with report := c } := by
  simp [raise, eq_comm]

/-! ### The call stack -/

/-- Push succeeds exactly below sixteen entries, and writes entry SP (R26). -/
theorem push_of_lt {s : State} (a : Word) (h : s.sp.val < 16) :
    s.push a = some { s with stack := s.stack.set s.sp.val a h, sp := ⟨s.sp.val + 1, Nat.succ_lt_succ h⟩ } := by
  simp [State.push, h]

theorem push_of_full {s : State} (a : Word) (h : s.sp.val = 16) : s.push a = none := by
  simp [State.push, h]

/-- Pop succeeds exactly above no entries, reads entry SP - 1 and writes no entry (R26). -/
theorem pop_of_pos {s : State} (h : 0 < s.sp.val) :
    s.pop = some (s.stack[s.sp.val - 1]'(by have := s.sp.isLt; omega),
      { s with sp := ⟨s.sp.val - 1, by have := s.sp.isLt; omega⟩ }) := by
  simp [State.pop, h]

theorem pop_of_empty {s : State} (h : s.sp.val = 0) : s.pop = none := by
  simp [State.pop, h]

/-! ### The fetch and the step -/

/-- The fetch reads the two bytes at `pc`, high byte first, when both are addresses (R53, R91). -/
theorem fetchWord_of_le {s : State} (h : s.pc.toNat + 1 ≤ 4095) :
    fetchWord s = some (wordOfBytes (memRead s.mem s.pc.toNat) (memRead s.mem (s.pc.toNat + 1))) := by
  have : s.pc.toNat + 1 < Config.memSize := by simp only [Config.memSize]; omega
  simp [fetchWord, this]

theorem fetchWord_of_gt {s : State} (h : s.pc.toNat > 4094) : fetchWord s = none := by
  have : ¬ s.pc.toNat + 1 < Config.memSize := by simp only [Config.memSize]; omega
  simp [fetchWord, this]

/-- Everything a step can do (R90): a failed fetch, an unknown word, or the decoded instruction after the advance. -/
theorem step_cases (s : State) :
    (fetchWord s = none ∧ step s = .next { s with report := .fetchOob s.pc }) ∨
    (∃ w, fetchWord s = some w ∧ decodeWord w = none ∧
      step s = .next { s.advancePc with report := .unknownInstr w }) ∨
    (∃ w i, fetchWord s = some w ∧ decodeWord w = some i ∧ step s = exec i s.advancePc) := by
  cases hf : fetchWord s with
  | none => exact .inl ⟨rfl, by simp [step, hf, raise]⟩
  | some w =>
    cases hd : decodeWord w with
    | none => exact .inr (.inl ⟨w, rfl, hd, by simp [step, hf, hd, raise]⟩)
    | some i => exact .inr (.inr ⟨w, i, rfl, hd, by simp [step, hf, hd]⟩)

/-! ### Operands -/

/-- A key index is a latch number exactly up to 15 (R141). -/
theorem keyIndex_of_le {b : Byte} (h : b.toNat ≤ 15) : keyIndex b = some ⟨b.toNat, by omega⟩ := by
  have : b.toNat < 16 := by omega
  simp [keyIndex, this]

theorem keyIndex_of_gt {b : Byte} (h : b.toNat > 15) : keyIndex b = none := by
  have : ¬ b.toNat < 16 := by omega
  simp [keyIndex, this]

/-- The least latched key (R146). -/
theorem leastKey_eq_some {s : State} {k : Fin 16} (hk : s.key k = true) (hlt : ∀ j : Fin 16, j < k → s.key j = false) :
    s.leastKey = some k := by
  unfold State.leastKey
  rw [List.find?_eq_some_iff_getElem]
  refine ⟨hk, k.val, by simp, by simp, ?_⟩
  intro j hj
  have := hlt ⟨j, by omega⟩ (by simpa [Fin.lt_def] using hj)
  simp [this]

theorem leastKey_eq_none {s : State} (h : ∀ k : Fin 16, s.key k = false) : s.leastKey = none := by
  simp [State.leastKey, h]

/-- Either some latch is true, and the least one is found, or none is (R146). -/
theorem leastKey_cases (s : State) :
    (∃ k, s.leastKey = some k ∧ s.key k = true ∧ ∀ j : Fin 16, j < k → s.key j = false) ∨
    (s.leastKey = none ∧ ∀ k : Fin 16, s.key k = false) := by
  cases h : s.leastKey with
  | none =>
    refine .inr ⟨rfl, fun k => ?_⟩
    have := List.find?_eq_none.1 h k (List.mem_finRange k)
    simpa using this
  | some k =>
    refine .inl ⟨k, rfl, ?_, ?_⟩
    · have := List.find?_some h; simpa using this
    · intro j hj
      unfold State.leastKey at h
      rw [List.find?_eq_some_iff_getElem] at h
      obtain ⟨_, n, hn, hkn, hlt⟩ := h
      have hk : n = k.val := by have := congrArg Fin.val hkn; simpa using this
      have := hlt j.val (by rw [hk]; exact hj)
      simpa using this

@[simp] theorem decimalDigits_length (b : Byte) : (decimalDigits b).length = 3 := rfl

/-- The registers of a dump are V0..Vx (R153). -/
theorem regsUpTo_eq (s : State) (x : Fin 16) : regsUpTo s x = ((List.finRange 16).take (x.val + 1)).map s.getV := by
  have h : (List.finRange 16).filter (fun k => decide (k ≤ x)) = (List.finRange 16).take (x.val + 1) := by
    revert x; decide
  rw [regsUpTo, h]

@[simp] theorem regsUpTo_length (s : State) (x : Fin 16) : (regsUpTo s x).length = x.val + 1 := by
  have := x.isLt
  simp only [regsUpTo_eq, List.length_map, List.length_take, List.length_finRange]; omega

theorem regsUpTo_getElem (s : State) (x : Fin 16) {k : Nat} (h : k < (regsUpTo s x).length) :
    (regsUpTo s x)[k] = s.getV ⟨k, by rw [regsUpTo_length] at h; omega⟩ := by
  simp [regsUpTo_eq]

/-- Loading a run of registers writes those registers and nothing else (R154). -/
theorem setRegsFrom_eq (s : State) (k : Nat) (bs : List Byte) :
    setRegsFrom s k bs = { s with v := (setRegsFrom s k bs).v } := by
  induction bs generalizing s k with
  | nil => rfl
  | cons b bs ih =>
    simp only [setRegsFrom]
    split
    · rw [ih]; rfl
    · rfl

theorem getV_setRegsFrom (s : State) (k : Nat) (bs : List Byte) (r : Fin 16) :
    (setRegsFrom s k bs).getV r = if k ≤ r.val then (bs[r.val - k]?).getD (s.getV r) else s.getV r := by
  induction bs generalizing s k with
  | nil => simp [setRegsFrom]
  | cons b bs ih =>
    simp only [setRegsFrom]
    split
    · rename_i hk
      rw [ih, getV_setV]
      rcases Nat.lt_trichotomy r.val k with h | h | h
      · have h1 : ¬ k + 1 ≤ r.val := by omega
        have h2 : ¬ k ≤ r.val := by omega
        have h3 : ¬ r = ⟨k, hk⟩ := fun e => by rw [e] at h; simp at h
        simp [h1, h2, h3]
      · have h3 : r = ⟨k, hk⟩ := Fin.ext h
        subst h3; simp
      · have h1 : k + 1 ≤ r.val := by omega
        have h2 : k ≤ r.val := by omega
        have h3 : ¬ r = ⟨k, hk⟩ := fun e => by rw [e] at h; simp at h
        obtain ⟨n, hn⟩ : ∃ n, r.val - k = n + 1 := ⟨r.val - k - 1, by omega⟩
        have h4 : r.val - (k + 1) = n := by omega
        simp [h1, h2, h3, hn, h4]
    · have : ¬ k ≤ r.val := by omega
      simp [this]

/-! ### Stores through I -/

/-- Everything a store through I can do (R60): the whole range is written, or the condition is raised and nothing is. -/
theorem storeAtI_cases (bs : List Byte) (s : State) :
    (rangeOk s.i.toNat bs.length = true ∧
      storeAtI bs s = .next { s with mem := writeBytes s.mem s.i.toNat bs, report := .none }) ∨
    (rangeOk s.i.toNat bs.length = false ∧ storeAtI bs s = .next { s with report := .addrOob s.i }) := by
  unfold storeAtI indexBase
  cases h : rangeOk s.i.toNat bs.length
  · exact .inr ⟨rfl, rfl⟩
  · exact .inl ⟨rfl, rfl⟩

/-! ### The flag byte and the image -/

theorem toNat_flagByte (c : Bool) : (flagByte c).toNat = if c then 1 else 0 := by cases c <;> rfl

/-- The images that `load` accepts (R195). -/
theorem imageWellFormed_iff (image : List Byte) :
    imageWellFormed image = true ↔ 1 ≤ image.length ∧ image.length ≤ 3584 := by
  simp only [imageWellFormed, Bool.and_eq_true, decide_eq_true_eq]
  exact Iff.rfl

/-! ### Schedules and safe runs -/

/-- A schedule in two parts runs the second from where the first ends. -/
theorem runEvents_append (es fs : List Event) (s : State) :
    runEvents (es ++ fs) s =
      match runEvents es s with
      | .next t => runEvents fs t
      | .fault r => .fault r
      | .refused r => .refused r := by
  induction es generalizing s with
  | nil => rfl
  | cons e es ih =>
    simp only [List.cons_append, runEvents]
    cases applyEvent e s with
    | next t => exact ih t
    | fault r => rfl
    | refused r => rfl

/-- A step is safe exactly when it reports `NONE` (R183). -/
theorem safeRun_step {s t : State} (h : step s = .next t) (es : List Event) :
    SafeRun (.step :: es) s ↔ t.report = .none ∧ SafeRun es t := by
  simp [SafeRun, reportsOf, applyEvent, h]

end Sys2Proof.Machine
end

