-- ==== Sys2Proof/Laws/Exec.lean ====
section
/-! SUPPORT. Laws/Exec.lean: for each meaning that branches, everything it can answer, so that later proofs cite the cases
and do not unfold the meaning; and each condition of a range test as arithmetic. -/

namespace Sys2Proof.Machine

theorem rangeOk_eq_false_iff (base count : Nat) : rangeOk base count = false ↔ count ≠ 0 ∧ base + count - 1 > 4095 := by
  have h := rangeOk_iff base count
  cases hr : rangeOk base count <;> simp [hr] at h ⊢ <;> omega

/-- `CALL` (R102): taken with the return address pushed, or the overflow. -/
theorem execCall_cases (nnn : BitVec 12) (s : State) :
    (∃ h : s.sp.val < 16, execCall nnn s = .next { s with
      stack := s.stack.set s.sp.val s.pc h, sp := ⟨s.sp.val + 1, Nat.succ_lt_succ h⟩, pc := addrOf nnn, report := .none }) ∨
    (s.sp.val = 16 ∧ execCall nnn s = .next { s with report := .stackOverflow }) := by
  have hsp := s.sp.isLt
  by_cases h : s.sp.val < 16
  · exact .inl ⟨h, by rw [execCall, push_of_lt _ h]; rfl⟩
  · have h' : s.sp.val = 16 := by omega
    exact .inr ⟨h', by rw [execCall, push_of_full _ h']; rfl⟩

/-- `RET` (R100): the popped entry, or the underflow. -/
theorem execRet_cases (s : State) :
    (∃ (h : s.sp.val < 17) (_ : 0 < s.sp.val), execRet s = .next { s with
      sp := ⟨s.sp.val - 1, by omega⟩, pc := s.stack[s.sp.val - 1]'(by omega), report := .none }) ∨
    (s.sp.val = 0 ∧ execRet s = .next { s with report := .stackUnderflow }) := by
  by_cases h : 0 < s.sp.val
  · exact .inl ⟨s.sp.isLt, h, by rw [execRet, pop_of_pos h]; rfl⟩
  · have h' : s.sp.val = 0 := by omega
    exact .inr ⟨h', by rw [execRet, pop_of_empty h']; rfl⟩

/-- `SKP` (R141): the latch V[x] names, or the condition. -/
theorem execSkp_cases (x : Fin 16) (s : State) :
    (∃ k : Fin 16, (s.getV x).toNat = k.val ∧
      execSkp x s = .next { s with pc := if s.key k then s.pc + 2 else s.pc, report := .none }) ∨
    ((s.getV x).toNat > 15 ∧ execSkp x s = .next { s with report := .keyOor (s.getV x) }) := by
  by_cases h : (s.getV x).toNat ≤ 15
  · refine .inl ⟨⟨(s.getV x).toNat, by omega⟩, rfl, ?_⟩
    rw [execSkp, keyIndex_of_le h]
    simp only [skipIf_eq]; rfl
  · exact .inr ⟨by omega, by rw [execSkp, keyIndex_of_gt (by omega)]; rfl⟩

/-- `SKNP` (R142): the latch V[x] names, or the condition. -/
theorem execSknp_cases (x : Fin 16) (s : State) :
    (∃ k : Fin 16, (s.getV x).toNat = k.val ∧
      execSknp x s = .next { s with pc := if s.key k then s.pc else s.pc + 2, report := .none }) ∨
    ((s.getV x).toNat > 15 ∧ execSknp x s = .next { s with report := .keyOor (s.getV x) }) := by
  by_cases h : (s.getV x).toNat ≤ 15
  · refine .inl ⟨⟨(s.getV x).toNat, by omega⟩, rfl, ?_⟩
    rw [execSknp, keyIndex_of_le h]
    simp only [skipIf_eq]
    cases s.key ⟨_, _⟩ <;> rfl
  · exact .inr ⟨by omega, by rw [execSknp, keyIndex_of_gt (by omega)]; rfl⟩

/-- `LD Vx,K` (R146): the least latched key, or the rewind. -/
theorem execLdVxK_cases (x : Fin 16) (s : State) :
    (∃ k : Fin 16, s.key k = true ∧ (∀ j : Fin 16, j < k → s.key j = false) ∧
      execLdVxK x s = .next { s.setV x (BitVec.ofNat 8 k.val) with report := .none }) ∨
    ((∀ k : Fin 16, s.key k = false) ∧ execLdVxK x s = .next { s with pc := s.pc - 2, report := .none }) := by
  rcases leastKey_cases s with ⟨k, h, hk, hlt⟩ | ⟨h, hk⟩
  · exact .inl ⟨k, hk, hlt, by rw [execLdVxK, h]; rfl⟩
  · exact .inr ⟨hk, by rw [execLdVxK, h]; rfl⟩

/-- What the scan of a sprite leaves (R132). -/
def scanOf (x y : Fin 16) (n : Nat) (s : State) : Scan :=
  drawRows (s.getV x).toNat (s.getV y).toNat (readBytes s.mem s.i.toNat n) (s.fb, false)

/-- `DRW` (R132): the scan's buffer with VF the collision, or the condition. -/
theorem execDrw_cases (x y : Fin 16) (n : Nat) (s : State) :
    ((n = 0 ∨ s.i.toNat + n ≤ 4096) ∧ execDrw x y n s = .next { s.setV vf (flagByte (scanOf x y n s).2) with
      fb := (scanOf x y n s).1, report := .none }) ∨
    (n ≠ 0 ∧ s.i.toNat + n - 1 > 4095 ∧ execDrw x y n s = .next { s with report := .addrOob s.i }) := by
  unfold execDrw indexBase
  cases h : rangeOk s.i.toNat n
  · have h' := (rangeOk_eq_false_iff _ _).1 h
    exact .inr ⟨h'.1, h'.2, rfl⟩
  · exact .inl ⟨(rangeOk_iff _ _).1 h, rfl⟩

/-- `LD B,Vx` (R152): the digits stored, or the condition. -/
theorem execLdB_cases (x : Fin 16) (s : State) :
    (s.i.toNat + 2 ≤ 4095 ∧ execLdB x s = .next { s with
      mem := writeBytes s.mem s.i.toNat (decimalDigits (s.getV x)), report := .none }) ∨
    (s.i.toNat + 2 > 4095 ∧ execLdB x s = .next { s with report := .addrOob s.i }) := by
  rcases storeAtI_cases (decimalDigits (s.getV x)) s with ⟨h, e⟩ | ⟨h, e⟩
  · rw [rangeOk_iff, decimalDigits_length] at h
    exact .inl ⟨by omega, e⟩
  · rw [rangeOk_eq_false_iff, decimalDigits_length] at h
    exact .inr ⟨by omega, e⟩

/-- `LD [I],Vx` (R153): the registers stored, or the condition. -/
theorem execDumpRegs_cases (x : Fin 16) (s : State) :
    (s.i.toNat + x.val ≤ 4095 ∧ execDumpRegs x s = .next { s with
      mem := writeBytes s.mem s.i.toNat (regsUpTo s x), report := .none }) ∨
    (s.i.toNat + x.val > 4095 ∧ execDumpRegs x s = .next { s with report := .addrOob s.i }) := by
  rcases storeAtI_cases (regsUpTo s x) s with ⟨h, e⟩ | ⟨h, e⟩
  · rw [rangeOk_iff, regsUpTo_length] at h
    exact .inl ⟨by omega, e⟩
  · rw [rangeOk_eq_false_iff, regsUpTo_length] at h
    exact .inr ⟨by omega, e⟩

/-- `LD Vx,[I]` (R154): the registers loaded, or the condition. -/
theorem execLoadRegs_cases (x : Fin 16) (s : State) :
    (s.i.toNat + x.val ≤ 4095 ∧ execLoadRegs x s = .next
      { setRegsFrom s 0 (readBytes s.mem s.i.toNat (x.val + 1)) with report := .none }) ∨
    (s.i.toNat + x.val > 4095 ∧ execLoadRegs x s = .next { s with report := .addrOob s.i }) := by
  unfold execLoadRegs indexBase
  cases h : rangeOk s.i.toNat (x.val + 1)
  · rw [rangeOk_eq_false_iff] at h
    exact .inr ⟨by omega, rfl⟩
  · rw [rangeOk_iff] at h
    exact .inl ⟨by omega, rfl⟩

end Sys2Proof.Machine
end

