-- ==== Sys2Proof/Laws/Frame.lean ====
section
/-! SUPPORT. Laws/Frame.lean: the frames of the shared writes, each said once (spec/10_state.md R36). -/

namespace Sys2Proof.Machine

/-- A state that differs in its report alone meets every frame. -/
theorem frame_report (w : Touches) (s : State) (r : Report) : Frame w s { s with report := r } where
  regs := fun _ _ => rfl
  index := fun _ => rfl
  pc := fun _ => rfl
  stack := fun _ _ => rfl
  sp := fun _ => rfl
  dt := fun _ => rfl
  st := fun _ => rfl
  display := fun _ _ _ => rfl
  keys := fun _ => rfl
  mem := fun _ _ => rfl
  draws := fun _ => rfl

/-- A register write touches its register. -/
theorem frame_setV (s : State) (x : Fin 16) (b : Byte) :
    Frame { regs := [x] } s { s.setV x b with report := .none } where
  regs := fun r hr => getV_setV_of_ne s x b (by simpa using hr)
  index := fun _ => rfl
  pc := fun _ => rfl
  stack := fun _ _ => rfl
  sp := fun _ => rfl
  dt := fun _ => rfl
  st := fun _ => rfl
  display := fun _ _ _ => rfl
  keys := fun _ => rfl
  mem := fun _ _ => rfl
  draws := fun _ => rfl

/-- A result with a flag touches its register and VF. -/
theorem frame_writeResultFlag (s : State) (x : Fin 16) (r : Byte) (c : Bool) :
    Frame { regs := [x, 15] } s { s.writeResultFlag x r c with report := .none } where
  regs := fun q hq => by
    have hq' : q ≠ x ∧ q ≠ vf := by simpa using hq
    have h := getV_writeResultFlag s x r c q
    rw [if_neg hq'.2, if_neg hq'.1] at h
    exact h
  index := fun _ => rfl
  pc := fun _ => rfl
  stack := fun _ _ => rfl
  sp := fun _ => rfl
  dt := fun _ => rfl
  st := fun _ => rfl
  display := fun _ _ _ => rfl
  keys := fun _ => rfl
  mem := fun _ _ => rfl
  draws := fun _ => rfl

/-- A jump or a skip touches `pc`. -/
theorem frame_pc (s : State) (a : Word) : Frame { pc := true } s { s with pc := a, report := .none } where
  regs := fun _ _ => rfl
  index := fun _ => rfl
  pc := fun h => absurd h (by decide)
  stack := fun _ _ => rfl
  sp := fun _ => rfl
  dt := fun _ => rfl
  st := fun _ => rfl
  display := fun _ _ _ => rfl
  keys := fun _ => rfl
  mem := fun _ _ => rfl
  draws := fun _ => rfl

/-- A taken call touches the stack, SP and `pc`. -/
theorem frame_call (s : State) (h : s.sp.val < 16) (n : Fin 17) (a : Word) :
    Frame { pc := true, stack := true, sp := true } s
      { s with stack := s.stack.set s.sp.val s.pc h, sp := n, pc := a, report := .none } where
  regs := fun _ _ => rfl
  index := fun _ => rfl
  pc := fun h => absurd h (by decide)
  stack := fun h => absurd h (by decide)
  sp := fun h => absurd h (by decide)
  dt := fun _ => rfl
  st := fun _ => rfl
  display := fun _ _ _ => rfl
  keys := fun _ => rfl
  mem := fun _ _ => rfl
  draws := fun _ => rfl

/-- A taken return touches SP and `pc`, and no stack entry. -/
theorem frame_ret (s : State) (n : Fin 17) (a : Word) :
    Frame { pc := true, sp := true } s { s with sp := n, pc := a, report := .none } where
  regs := fun _ _ => rfl
  index := fun _ => rfl
  pc := fun h => absurd h (by decide)
  stack := fun _ _ => rfl
  sp := fun h => absurd h (by decide)
  dt := fun _ => rfl
  st := fun _ => rfl
  display := fun _ _ _ => rfl
  keys := fun _ => rfl
  mem := fun _ _ => rfl
  draws := fun _ => rfl

/-- An index write touches I. -/
theorem frame_i (s : State) (a : Word) : Frame { index := true } s { s with i := a, report := .none } where
  regs := fun _ _ => rfl
  index := fun h => absurd h (by decide)
  pc := fun _ => rfl
  stack := fun _ _ => rfl
  sp := fun _ => rfl
  dt := fun _ => rfl
  st := fun _ => rfl
  display := fun _ _ _ => rfl
  keys := fun _ => rfl
  mem := fun _ _ => rfl
  draws := fun _ => rfl

/-- A store of bytes touches exactly their addresses. -/
theorem frame_writeBytes (s : State) (base : Nat) (bs : List Byte) :
    Frame { memBase := base, memCount := bs.length } s { s with mem := writeBytes s.mem base bs, report := .none } where
  regs := fun _ _ => rfl
  index := fun _ => rfl
  pc := fun _ => rfl
  stack := fun _ _ => rfl
  sp := fun _ => rfl
  dt := fun _ => rfl
  st := fun _ => rfl
  display := fun _ _ _ => rfl
  keys := fun _ => rfl
  mem := fun _ ha => memRead_writeBytes_outside s.mem ha
  draws := fun _ => rfl

end Sys2Proof.Machine
end

