-- ==== Sys2Proof/Laws/PerInstr.lean ====
section
/-! SUPPORT. Laws/PerInstr.lean: the per-instruction family EncodeMatchesRow: an instruction's word carries the fixed bits
of its row of the opcode map (spec/30_encoding.md R72, R75), at every value of its operands. -/

namespace Sys2Proof.Laws.EncodeMatchesRow

open Sys2Proof

/-- (encodeWord i & mask) = match, for the row of i. -/
def Statement (i : Instr) : Prop := encodeWord i &&& (opcodeRow i).mask = (opcodeRow i).pattern

/-- The top nibble of a word, kept by the mask 0xF000. -/
theorem and_F000 (w : Word) : w &&& 0xF000#16 = (fieldG w).setWidth 16 <<< 12 := by
  apply BitVec.eq_of_getLsbD_eq
  intro i hi
  have : i = 0 ∨ i = 1 ∨ i = 2 ∨ i = 3 ∨ i = 4 ∨ i = 5 ∨ i = 6 ∨ i = 7 ∨ i = 8 ∨ i = 9 ∨ i = 10 ∨ i = 11 ∨ i = 12 ∨
    i = 13 ∨ i = 14 ∨ i = 15 := by omega
  rcases this with h | h | h | h | h | h | h | h | h | h | h | h | h | h | h | h <;> subst h <;> simp [fieldG]

/-- The top and the low nibble of a word, kept by the mask 0xF00F. -/
theorem and_F00F (w : Word) : w &&& 0xF00F#16 = (fieldG w).setWidth 16 <<< 12 ||| (fieldN w).setWidth 16 := by
  apply BitVec.eq_of_getLsbD_eq
  intro i hi
  have : i = 0 ∨ i = 1 ∨ i = 2 ∨ i = 3 ∨ i = 4 ∨ i = 5 ∨ i = 6 ∨ i = 7 ∨ i = 8 ∨ i = 9 ∨ i = 10 ∨ i = 11 ∨ i = 12 ∨
    i = 13 ∨ i = 14 ∨ i = 15 := by omega
  rcases this with h | h | h | h | h | h | h | h | h | h | h | h | h | h | h | h <;> subst h <;> simp [fieldG, fieldN]

/-- The top nibble and the low byte of a word, kept by the mask 0xF0FF. -/
theorem and_F0FF (w : Word) : w &&& 0xF0FF#16 = (fieldG w).setWidth 16 <<< 12 ||| (fieldNN w).setWidth 16 := by
  apply BitVec.eq_of_getLsbD_eq
  intro i hi
  have : i = 0 ∨ i = 1 ∨ i = 2 ∨ i = 3 ∨ i = 4 ∨ i = 5 ∨ i = 6 ∨ i = 7 ∨ i = 8 ∨ i = 9 ∨ i = 10 ∨ i = 11 ∨ i = 12 ∨
    i = 13 ∨ i = 14 ∨ i = 15 := by omega
  rcases this with h | h | h | h | h | h | h | h | h | h | h | h | h | h | h | h <;> subst h <;> simp [fieldG, fieldNN]

theorem wordA_row (g : BitVec 4) (nnn : BitVec 12) : wordA g nnn &&& 0xF000#16 = g.setWidth 16 <<< 12 := by
  rw [and_F000, fieldG_wordA]

theorem wordXB_row (g : BitVec 4) (x : Fin 16) (nn : Byte) : wordXB g x nn &&& 0xF000#16 = g.setWidth 16 <<< 12 := by
  rw [and_F000, fieldG_wordXB]

theorem wordXS_row (g : BitVec 4) (x : Fin 16) (nn : Byte) :
    wordXB g x nn &&& 0xF0FF#16 = g.setWidth 16 <<< 12 ||| nn.setWidth 16 := by
  rw [and_F0FF, fieldG_wordXB, fieldNN_wordXB]

theorem wordXY_row (g : BitVec 4) (x y : Fin 16) (n : BitVec 4) :
    wordXYN g x y n &&& 0xF00F#16 = g.setWidth 16 <<< 12 ||| n.setWidth 16 := by
  rw [and_F00F, fieldG_wordXYN, fieldN_wordXYN]

theorem wordXYN_row (g : BitVec 4) (x y : Fin 16) (n : BitVec 4) :
    wordXYN g x y n &&& 0xF000#16 = g.setWidth 16 <<< 12 := by
  rw [and_F000, fieldG_wordXYN]

theorem cls : Statement .cls := by unfold Statement; decide
theorem ret : Statement .ret := by unfold Statement; decide
theorem jp (nnn : BitVec 12) : Statement (.jp nnn) := wordA_row _ _
theorem call (nnn : BitVec 12) : Statement (.call nnn) := wordA_row _ _
theorem seImm (x : Fin 16) (nn : Byte) : Statement (.seImm x nn) := wordXB_row _ _ _
theorem sneImm (x : Fin 16) (nn : Byte) : Statement (.sneImm x nn) := wordXB_row _ _ _
theorem seReg (x y : Fin 16) : Statement (.seReg x y) := wordXY_row _ _ _ _
theorem ldImm (x : Fin 16) (nn : Byte) : Statement (.ldImm x nn) := wordXB_row _ _ _
theorem addImm (x : Fin 16) (nn : Byte) : Statement (.addImm x nn) := wordXB_row _ _ _
theorem ldReg (x y : Fin 16) : Statement (.ldReg x y) := wordXY_row _ _ _ _
theorem orReg (x y : Fin 16) : Statement (.orReg x y) := wordXY_row _ _ _ _
theorem andReg (x y : Fin 16) : Statement (.andReg x y) := wordXY_row _ _ _ _
theorem xorReg (x y : Fin 16) : Statement (.xorReg x y) := wordXY_row _ _ _ _
theorem addReg (x y : Fin 16) : Statement (.addReg x y) := wordXY_row _ _ _ _
theorem subReg (x y : Fin 16) : Statement (.subReg x y) := wordXY_row _ _ _ _
theorem shr (x y : Fin 16) : Statement (.shr x y) := wordXY_row _ _ _ _
theorem subnReg (x y : Fin 16) : Statement (.subnReg x y) := wordXY_row _ _ _ _
theorem shl (x y : Fin 16) : Statement (.shl x y) := wordXY_row _ _ _ _
theorem sneReg (x y : Fin 16) : Statement (.sneReg x y) := wordXY_row _ _ _ _
theorem ldI (nnn : BitVec 12) : Statement (.ldI nnn) := wordA_row _ _
theorem jpV0 (nnn : BitVec 12) : Statement (.jpV0 nnn) := wordA_row _ _
theorem rnd (x : Fin 16) (nn : Byte) : Statement (.rnd x nn) := wordXB_row _ _ _
theorem drw (x y : Fin 16) (n : Nat) : Statement (.drw x y n) := wordXYN_row _ _ _ _
theorem skp (x : Fin 16) : Statement (.skp x) := wordXS_row _ _ _
theorem sknp (x : Fin 16) : Statement (.sknp x) := wordXS_row _ _ _
theorem ldVxDt (x : Fin 16) : Statement (.ldVxDt x) := wordXS_row _ _ _
theorem ldVxK (x : Fin 16) : Statement (.ldVxK x) := wordXS_row _ _ _
theorem ldDtVx (x : Fin 16) : Statement (.ldDtVx x) := wordXS_row _ _ _
theorem ldStVx (x : Fin 16) : Statement (.ldStVx x) := wordXS_row _ _ _
theorem addI (x : Fin 16) : Statement (.addI x) := wordXS_row _ _ _
theorem ldF (x : Fin 16) : Statement (.ldF x) := wordXS_row _ _ _
theorem ldB (x : Fin 16) : Statement (.ldB x) := wordXS_row _ _ _
theorem dumpRegs (x : Fin 16) : Statement (.dumpRegs x) := wordXS_row _ _ _
theorem loadRegs (x : Fin 16) : Statement (.loadRegs x) := wordXS_row _ _ _

end Sys2Proof.Laws.EncodeMatchesRow
end

