-- ==== Sys2Proof/Laws/Scan.lean ====
section
/-! SUPPORT. Laws/Scan.lean: what the sprite scan does to the display buffer (spec/44_display.md R132): it toggles the points
under the sprite's set bits, and a sprite of at most 32 rows meets no point twice. -/

namespace Sys2Proof.Machine

/-- A point of the display: column and row. -/
abbrev Point := Fin 64 × Fin 32

/-- Toggle one point, noting whether it was set. -/
def togglePoint (acc : Scan) (p : Point) : Scan := (togglePixel acc.1 p.1 p.2, acc.2 || pixel acc.1 p.1 p.2)

/-- Toggling distinct points negates exactly those, and notes whether one of them was set before. -/
theorem foldl_togglePoint {l : List Point} (hn : l.Nodup) (acc : Scan) :
    (∀ x y, pixel (l.foldl togglePoint acc).1 x y = if (x, y) ∈ l then !pixel acc.1 x y else pixel acc.1 x y) ∧
    ((l.foldl togglePoint acc).2 = true ↔ acc.2 = true ∨ ∃ p ∈ l, pixel acc.1 p.1 p.2 = true) := by
  induction l generalizing acc with
  | nil => simp
  | cons p l ih =>
    rw [List.nodup_cons] at hn
    obtain ⟨h1, h2⟩ := ih hn.2 (togglePoint acc p)
    simp only [List.foldl_cons]
    constructor
    · intro x y
      rw [h1]
      simp only [togglePoint, pixel_togglePixel, List.mem_cons]
      by_cases hp : (x, y) = p
      · subst hp; simp [hn.1]
      · have : ¬ (x = p.1 ∧ y = p.2) := fun h => hp (Prod.ext h.1 h.2)
        simp [hp, this]
    · have keep : ∀ q ∈ l, pixel (togglePoint acc p).1 q.1 q.2 = pixel acc.1 q.1 q.2 := by
        intro q hq
        have : ¬ (q.1 = p.1 ∧ q.2 = p.2) := fun h => hn.1 (by rwa [show q = p from Prod.ext h.1 h.2] at hq)
        simp [togglePoint, pixel_togglePixel, this]
      rw [h2]
      simp only [List.mem_cons, exists_eq_or_imp]
      constructor
      · rintro (h | ⟨q, hq, h⟩)
        · simp only [togglePoint, Bool.or_eq_true] at h; tauto
        · rw [keep q hq] at h; exact .inr (.inr ⟨q, hq, h⟩)
      · rintro (h | h | ⟨q, hq, h⟩)
        · exact .inl (by simp [togglePoint, h])
        · exact .inl (by simp [togglePoint, h])
        · exact .inr ⟨q, hq, by rw [keep q hq]; exact h⟩

/-- The points under the set bits of one sprite row. -/
def rowPoints (vx py : Nat) (b : Byte) : List Point :=
  ((List.range 8).filter (fun col => b.getLsbD (7 - col))).map (fun col => (wrapX (vx + col), wrapY py))

/-- The points under the set bits of the rows from row coordinate `py` downward. -/
def spritePoints (vx : Nat) : Nat → List Byte → List Point
  | _, [] => []
  | py, b :: bs => rowPoints vx py b ++ spritePoints vx (py + 1) bs

theorem drawRow_eq_foldl (vx py : Nat) (b : Byte) (acc : Scan) :
    drawRow vx py b acc = (rowPoints vx py b).foldl togglePoint acc := by
  unfold drawRow rowPoints
  generalize List.range 8 = l
  induction l generalizing acc with
  | nil => rfl
  | cons c l ih =>
    simp only [List.foldl_cons, ih]
    by_cases hb : b.getLsbD (7 - c) = true
    · simp [hb, drawBit, togglePoint]
    · simp [hb, drawBit]

/-- The scan toggles the sprite's points in order (R132). -/
theorem drawRows_eq_foldl (vx py : Nat) (bs : List Byte) (acc : Scan) :
    drawRows vx py bs acc = (spritePoints vx py bs).foldl togglePoint acc := by
  induction bs generalizing py acc with
  | nil => rfl
  | cons b bs ih => simp only [drawRows, spritePoints, List.foldl_append, drawRow_eq_foldl, ih]

/-- A point is under the sprite when some set bit's column and row, wrapped, are its coordinates (R132). -/
theorem mem_spritePoints (vx py : Nat) (bs : List Byte) (p : Point) :
    p ∈ spritePoints vx py bs ↔ ∃ row col, ∃ h : row < bs.length, col < 8 ∧ (vx + col) % 64 = p.1.val ∧
      (py + row) % 32 = p.2.val ∧ bs[row].getLsbD (7 - col) = true := by
  induction bs generalizing py with
  | nil => simp [spritePoints]
  | cons b bs ih =>
    simp only [spritePoints, List.mem_append, ih, rowPoints, List.mem_map, List.mem_filter, List.mem_range]
    constructor
    · rintro (⟨c, ⟨hc, hb⟩, rfl⟩ | ⟨row, col, h, hc, h1, h2, h3⟩)
      · exact ⟨0, c, by simp, hc, rfl, rfl, hb⟩
      · exact ⟨row + 1, col, by simp; exact h, hc, h1, by rw [← h2]; congr 1; omega, by simpa using h3⟩
    · rintro ⟨row, col, h, hc, h1, h2, h3⟩
      cases row with
      | zero => exact .inl ⟨col, ⟨hc, by simpa using h3⟩, Prod.ext (Fin.ext h1) (Fin.ext h2)⟩
      | succ row =>
        exact .inr ⟨row, col, by simpa using h, hc, h1, by rw [← h2]; congr 1; omega, by simpa using h3⟩

theorem rowPoints_nodup (vx py : Nat) (b : Byte) : (rowPoints vx py b).Nodup := by
  unfold rowPoints
  refine List.Nodup.map_on ?_ (List.Nodup.filter _ List.nodup_range)
  intro c hc d hd h
  simp only [List.mem_filter, List.mem_range] at hc hd
  simp only [Prod.mk.injEq, wrapX, Fin.mk.injEq] at h
  omega

/-- "A sprite ... cannot overlap itself" (R132 (d)): up to 32 rows, no point is met twice. -/
theorem spritePoints_nodup (vx py : Nat) {bs : List Byte} (h : bs.length ≤ 32) : (spritePoints vx py bs).Nodup := by
  induction bs generalizing py with
  | nil => exact List.nodup_nil
  | cons b bs ih =>
    simp only [List.length_cons] at h
    refine List.nodup_append.2 ⟨rowPoints_nodup _ _ _, ih _ (by omega), ?_⟩
    intro p hp q hq e
    subst e
    rw [mem_spritePoints] at hq
    obtain ⟨row, col, hr, _, _, h2, _⟩ := hq
    simp only [rowPoints, List.mem_map] at hp
    obtain ⟨c, _, rfl⟩ := hp
    simp [wrapY] at h2
    omega

/-- `spriteBit` of Safety.lean, as a point of the scan. -/
theorem spriteBit_iff_mem (m : Memory) (base n vx vy : Nat) (x : Fin 64) (y : Fin 32) :
    spriteBit m base n vx vy x y ↔ (x, y) ∈ spritePoints vx vy (readBytes m base n) := by
  rw [mem_spritePoints]
  unfold spriteBit
  simp only [readBytes_length, readBytes_getElem, exists_prop]

end Sys2Proof.Machine
end

