-- ==== Sys2Proof/Tests/Slice0.lean ====
section
/-! SUPPORT. Tests/Slice0.lean: tests of the model. Expected results come from spec/30_encoding.md (R75, R76, R82),
spec/opcode_table.json and the vectors of spec/95_test_vectors.md; and for each statement that has hypotheses, a concrete
state and operands that meet them, at the edges of their ranges. -/

namespace Sys2Proof.Tests

open Sys2Proof Sys2Proof.Machine

/-! ### Helpers -/

/-- Whether an outcome is a next state of which `p` holds. -/
def answers (o : Outcome) (p : State → Bool) : Bool :=
  match o with
  | .next t => p t
  | .fault _ => false
  | .refused _ => false

/-- One step with the word `w` stored at `pc`, the vectors' convention. -/
def stepOn (s : State) (w : Nat) (p : State → Bool) : Bool := answers (step (s.withFetchWord 16 w)) p

/-- The reset state with registers set. -/
def withRegs (l : List (Fin 16 × Byte)) : State := l.foldl (fun s e => s.setV e.1 e.2) State.reset

/-- The same with I, and bytes from an address upward. -/
def withData (l : List (Fin 16 × Byte)) (i : Word) (a : Nat) (bs : List Byte) : State :=
  { withRegs l with i := i, mem := writeBytes [] a bs }

/-- A display with the listed pixels set. -/
def lit (l : List (Fin 64 × Fin 32)) : Framebuffer := l.foldl (fun fb p => togglePixel fb p.1 p.2) blankFb

/-- The report, `pc` and listed registers of a state. -/
def shows (t : State) (r : Report) (pc : Word) (l : List (Fin 16 × Byte)) : Bool :=
  decide (t.report = r) && decide (t.pc = pc) && l.all (fun e => decide (t.getV e.1 = e.2))

/-- A state with `n` stack entries in use. -/
def withSp (n : Fin 17) : State := { State.reset with sp := n }

/-- A state at another `pc`. -/
def atPc (a : Word) : State := { State.reset with pc := a }

/-! ### Well-formedness: each check refuses an ill-formed term -/

theorem test_wellFormed_refuses_sixteen_rows : (Instr.drw 0 0 16).wellFormed = false := by decide
theorem test_wellFormed_accepts_fifteen_rows : (Instr.drw 15 15 15).wellFormed = true := by decide
theorem test_image_refuses_empty : imageWellFormed [] = false := by decide
theorem test_image_refuses_oversize : imageWellFormed (List.replicate 3585 0xAB) = false := by
  rw [imageWellFormed, List.length_replicate]; decide
theorem test_image_accepts_full : imageWellFormed (List.replicate 3584 0xAB) = true := by
  rw [imageWellFormed, List.length_replicate]; decide

/-! ### Decoding: a word of every row, written out from R76 -/

theorem test_decode_cls : decode [0x00, 0xE0] = .ok (.cls, []) := by decide
theorem test_decode_ret : decode [0x00, 0xEE] = .ok (.ret, []) := by decide
theorem test_decode_jp : decode [0x1A, 0xBC] = .ok (.jp 0xABC, []) := by decide
theorem test_decode_call : decode [0x2A, 0xBC] = .ok (.call 0xABC, []) := by decide
theorem test_decode_seImm : decode [0x3A, 0x42] = .ok (.seImm 10 0x42, []) := by decide
theorem test_decode_sneImm : decode [0x4A, 0x42] = .ok (.sneImm 10 0x42, []) := by decide
theorem test_decode_seReg : decode [0x5A, 0xB0] = .ok (.seReg 10 11, []) := by decide
theorem test_decode_ldImm : decode [0x6F, 0x7E] = .ok (.ldImm 15 0x7E, []) := by decide
theorem test_decode_addImm : decode [0x71, 0xFF] = .ok (.addImm 1 0xFF, []) := by decide
theorem test_decode_ldReg : decode [0x80, 0x10] = .ok (.ldReg 0 1, []) := by decide
theorem test_decode_orReg : decode [0x80, 0x11] = .ok (.orReg 0 1, []) := by decide
theorem test_decode_andReg : decode [0x80, 0x12] = .ok (.andReg 0 1, []) := by decide
theorem test_decode_xorReg : decode [0x82, 0x23] = .ok (.xorReg 2 2, []) := by decide
theorem test_decode_addReg : decode [0x8F, 0x14] = .ok (.addReg 15 1, []) := by decide
theorem test_decode_subReg : decode [0x80, 0xF5] = .ok (.subReg 0 15, []) := by decide
theorem test_decode_shr : decode [0x80, 0x16] = .ok (.shr 0 1, []) := by decide
theorem test_decode_subnReg : decode [0x80, 0x17] = .ok (.subnReg 0 1, []) := by decide
theorem test_decode_shl : decode [0x80, 0x1E] = .ok (.shl 0 1, []) := by decide
theorem test_decode_sneReg : decode [0x9A, 0xB0] = .ok (.sneReg 10 11, []) := by decide
theorem test_decode_ldI : decode [0xA3, 0x00] = .ok (.ldI 0x300, []) := by decide
theorem test_decode_jpV0 : decode [0xB2, 0x10] = .ok (.jpV0 0x210, []) := by decide
theorem test_decode_rnd : decode [0xC3, 0x0F] = .ok (.rnd 3 0x0F, []) := by decide
theorem test_decode_drw : decode [0xD1, 0x2F] = .ok (.drw 1 2 15, []) := by decide
theorem test_decode_skp : decode [0xE2, 0x9E] = .ok (.skp 2, []) := by decide
theorem test_decode_sknp : decode [0xE2, 0xA1] = .ok (.sknp 2, []) := by decide
theorem test_decode_ldVxDt : decode [0xF1, 0x07] = .ok (.ldVxDt 1, []) := by decide
theorem test_decode_ldVxK : decode [0xF3, 0x0A] = .ok (.ldVxK 3, []) := by decide
theorem test_decode_ldDtVx : decode [0xF4, 0x15] = .ok (.ldDtVx 4, []) := by decide
theorem test_decode_ldStVx : decode [0xF5, 0x18] = .ok (.ldStVx 5, []) := by decide
theorem test_decode_addI : decode [0xF2, 0x1E] = .ok (.addI 2, []) := by decide
theorem test_decode_ldF : decode [0xF2, 0x29] = .ok (.ldF 2, []) := by decide
theorem test_decode_ldB : decode [0xF0, 0x33] = .ok (.ldB 0, []) := by decide
theorem test_decode_dumpRegs : decode [0xFF, 0x55] = .ok (.dumpRegs 15, []) := by decide
theorem test_decode_loadRegs : decode [0xF2, 0x65, 0x12] = .ok (.loadRegs 2, [0x12]) := by decide

/-- The unknown words of spec/95_test_vectors.md 2.1. -/
theorem test_decode_unknown :
    ([0x0000, 0x00E1, 0x01E0, 0x0123, 0x5AB1, 0x9AB1, 0x8018, 0x801F, 0xE200, 0xF200] : List Word).all
      (fun w => decodeWord w == none) = true := by decide
theorem test_decode_truncated : decode [0x00] = .error .truncated := by decide
theorem test_decodeTableWord : decodeTableWord 16 0xF265 = some (.loadRegs 2) ∧ decodeTableWord 16 0x0000 = none := by
  decide

/-- R75: no two of the 34 rows overlap (spec/30_encoding.md R74). -/
theorem test_rows_do_not_overlap : opcodeRows.length = 34 ∧
    opcodeRows.Pairwise (fun r q => (r.pattern ^^^ q.pattern) &&& (r.mask &&& q.mask) ≠ 0) := by decide

/-! ### The step (95_test_vectors 2.1) -/

theorem test_step_reset_is_unknown : answers (step State.reset) (fun t => shows t (.unknownInstr 0x0000) 0x0202 []) = true := by
  decide
theorem test_step_last_fetch : stepOn (atPc 0x0FFE) 0x6A01 (fun t => shows t .none 0x1000 [(10, 0x01)]) = true := by decide
theorem test_step_fetch_oob : answers (step (atPc 0x0FFF)) (fun t => shows t (.fetchOob 0x0FFF) 0x0FFF []) = true := by decide
theorem test_step_odd_pc : stepOn (atPc 0x0201) 0x6A01 (fun t => shows t .none 0x0203 [(10, 0x01)]) = true := by decide
theorem test_report_codes : [Report.none, .fetchOob 0, .addrOob 0, .unknownInstr 0, .stackOverflow, .stackUnderflow,
    .keyOor 0, .loadRejected 0].map reportCode = [0, 1, 2, 3, 4, 5, 6, 7] := by decide

/-! ### Flow (2.2) -/

theorem test_ret : stepOn { atPc 0x0400 with sp := 2, stack := (State.reset.stack.set 0 0x0206).set 1 0x030A } 0x00EE
    (fun t => shows t .none 0x030A [] && decide (t.sp = 1) && decide (t.stack[1] = 0x030A)) = true := by decide
theorem test_ret_empty : stepOn (atPc 0x0400) 0x00EE
    (fun t => shows t .stackUnderflow 0x0402 [] && decide (t.sp = 0)) = true := by decide
theorem test_jp : stepOn State.reset 0x1ABC (fun t => shows t .none 0x0ABC []) = true := by decide
theorem test_call_last_slot : stepOn (withSp 15) 0x2ABC
    (fun t => shows t .none 0x0ABC [] && decide (t.sp = 16) && decide (t.stack[15] = 0x0202)) = true := by decide
theorem test_call_full : stepOn (withSp 16) 0x2ABC
    (fun t => shows t .stackOverflow 0x0202 [] && decide (t.sp = 16) && decide (t.stack = State.reset.stack)) = true := by decide
theorem test_seImm : stepOn (withRegs [(10, 0x42)]) 0x3A42 (fun t => shows t .none 0x0204 []) = true := by decide
theorem test_seImm_top : stepOn (atPc 0x0FFE) 0x3000 (fun t => shows t .none 0x1002 []) = true := by decide
theorem test_sneImm : stepOn (withRegs [(10, 0x43)]) 0x4A42 (fun t => shows t .none 0x0204 []) = true := by decide
theorem test_sneImm_equal : stepOn (withRegs [(10, 0x42)]) 0x4A42 (fun t => shows t .none 0x0202 []) = true := by decide
theorem test_seReg : stepOn (withRegs [(10, 0x07), (11, 0x08)]) 0x5AB0 (fun t => shows t .none 0x0202 []) = true := by decide
theorem test_seReg_same : stepOn (withRegs [(3, 0x09)]) 0x5330 (fun t => shows t .none 0x0204 []) = true := by decide
theorem test_sneReg : stepOn (withRegs [(10, 0x07), (11, 0x08)]) 0x9AB0 (fun t => shows t .none 0x0204 []) = true := by decide
theorem test_sneReg_equal : stepOn (withRegs [(10, 0x07), (11, 0x07)]) 0x9AB0 (fun t => shows t .none 0x0202 []) = true := by
  decide
theorem test_jpV0_largest : stepOn (withRegs [(0, 0xFF)]) 0xBFFF (fun t => shows t .none 0x10FE []) = true := by decide
theorem test_jpV0_not_v3 : stepOn (withRegs [(0, 0x02), (3, 0x50)]) 0xB300 (fun t => shows t .none 0x0302 []) = true := by decide

/-! ### Immediates (2.3) -/

theorem test_ldImm_vf : stepOn State.reset 0x6F7E (fun t => shows t .none 0x0202 [(15, 0x7E)]) = true := by decide
theorem test_addImm_wraps : stepOn (withRegs [(1, 0xFE), (15, 0xAA)]) 0x7105
    (fun t => shows t .none 0x0202 [(1, 0x03), (15, 0xAA)]) = true := by decide
theorem test_addImm_vf : stepOn (withRegs [(15, 0xFF)]) 0x7F01 (fun t => shows t .none 0x0202 [(15, 0x00)]) = true := by decide
theorem test_ldI : stepOn State.reset 0xAFFF (fun t => shows t .none 0x0202 [] && decide (t.i = 0x0FFF)) = true := by decide
theorem test_rnd : answers (rndWith 0xA7 3 0x0F State.reset) (fun t => shows t .none 0x0200 [(3, 0x07)]) = true := by decide
theorem test_rnd_mask_zero : stepOn (withRegs [(3, 0x55)]) 0xC300 (fun t => decide (t.draws = 1)) = true := by decide

/-! ### ALU (2.4) -/

theorem test_ldReg : stepOn (withRegs [(1, 0x3C)]) 0x8010 (fun t => shows t .none 0x0202 [(0, 0x3C), (1, 0x3C)]) = true := by
  decide
theorem test_or : stepOn (withRegs [(0, 0xF0), (1, 0x0F), (15, 0x77)]) 0x8011
    (fun t => shows t .none 0x0202 [(0, 0xFF), (1, 0x0F), (15, 0x77)]) = true := by decide
theorem test_and : stepOn (withRegs [(0, 0xF0), (1, 0x3C), (15, 0x77)]) 0x8012
    (fun t => shows t .none 0x0202 [(0, 0x30), (1, 0x3C), (15, 0x77)]) = true := by decide
theorem test_xor : stepOn (withRegs [(0, 0xF0), (1, 0x3C), (15, 0x77)]) 0x8013
    (fun t => shows t .none 0x0202 [(0, 0xCC), (1, 0x3C), (15, 0x77)]) = true := by decide
/-- The document's scenario S2. -/
theorem test_add_carry : stepOn (withRegs [(0, 0xFF), (1, 0x01)]) 0x8014
    (fun t => shows t .none 0x0202 [(0, 0x00), (1, 0x01), (15, 0x01)]) = true := by decide
theorem test_add_vf_no_carry : stepOn (withRegs [(15, 0x10), (1, 0x20)]) 0x8F14
    (fun t => shows t .none 0x0202 [(15, 0x00)]) = true := by decide
theorem test_sub_borrow : stepOn (withRegs [(0, 0x03), (1, 0x05), (15, 0x01)]) 0x8015
    (fun t => shows t .none 0x0202 [(0, 0xFE), (1, 0x05), (15, 0x00)]) = true := by decide
theorem test_sub_reads_old_vf : stepOn (withRegs [(0, 0x01), (15, 0x02)]) 0x80F5
    (fun t => shows t .none 0x0202 [(0, 0xFF), (15, 0x00)]) = true := by decide
theorem test_shr_ignores_y : stepOn (withRegs [(0, 0x04), (1, 0xFF), (15, 0x01)]) 0x8016
    (fun t => shows t .none 0x0202 [(0, 0x02), (1, 0xFF), (15, 0x00)]) = true := by decide
theorem test_shr_vf_even : stepOn (withRegs [(15, 0x02)]) 0x8F06 (fun t => shows t .none 0x0202 [(15, 0x00)]) = true := by decide
theorem test_subn_borrow : stepOn (withRegs [(0, 0x05), (1, 0x03)]) 0x8017
    (fun t => shows t .none 0x0202 [(0, 0xFE), (1, 0x03), (15, 0x00)]) = true := by decide
theorem test_subn_equal : stepOn (withRegs [(0, 0x07), (1, 0x07)]) 0x8017
    (fun t => shows t .none 0x0202 [(0, 0x00), (15, 0x01)]) = true := by decide
theorem test_shl : stepOn (withRegs [(0, 0x81)]) 0x800E (fun t => shows t .none 0x0202 [(0, 0x02), (15, 0x01)]) = true := by
  decide
theorem test_shl_vf : stepOn (withRegs [(15, 0x80)]) 0x8F0E (fun t => shows t .none 0x0202 [(15, 0x01)]) = true := by decide

/-! ### Display (2.5) -/

theorem test_cls : stepOn { withRegs [(15, 0x01)] with fb := lit [(0, 0), (63, 31)] } 0x00E0
    (fun t => shows t .none 0x0202 [(15, 0x01)] && decide (t.fb = blankFb)) = true := by decide +kernel
theorem test_drw_wraps : stepOn (withData [(1, 0x3C), (2, 0x1F)] 0x0300 0x300 [0xFF]) 0xD121
    (fun t => shows t .none 0x0202 [(15, 0x00)] && decide (t.fb = lit ([(60, 31), (61, 31), (62, 31), (63, 31)]
      ++ [(0, 31), (1, 31), (2, 31), (3, 31)]))) = true := by decide +kernel
theorem test_drw_collision : stepOn { withData [] 0x0300 0x300 [0xC0] with fb := lit [(1, 0), (5, 5)] } 0xD121
    (fun t => shows t .none 0x0202 [(15, 0x01)] && decide (t.fb = lit [(0, 0), (5, 5)])) = true := by decide +kernel

/-! ### Keypad and timers (2.6) -/

theorem test_skp : stepOn (keyDown 7 (withRegs [(2, 0x07)])) 0xE29E (fun t => shows t .none 0x0204 []) = true := by decide
theorem test_skp_oor : stepOn (keyDown 0 (withRegs [(2, 0x10)])) 0xE29E (fun t => shows t (.keyOor 0x10) 0x0202 []) = true := by
  decide
theorem test_sknp : stepOn (withRegs [(2, 0x07)]) 0xE2A1 (fun t => shows t .none 0x0204 []) = true := by decide
theorem test_sknp_oor : stepOn (withRegs [(2, 0xFF)]) 0xE2A1 (fun t => shows t (.keyOor 0xFF) 0x0202 []) = true := by decide
theorem test_ldVxDt : stepOn { State.reset with dt := 0x2A } 0xF107
    (fun t => shows t .none 0x0202 [(1, 0x2A)] && decide (t.dt = 0x2A)) = true := by decide
theorem test_ldDtVx : stepOn (withRegs [(0, 0x3C)]) 0xF015
    (fun t => shows t .none 0x0202 [] && decide (t.dt = 0x3C) && decide (t.st = 0)) = true := by decide
theorem test_ldStVx : stepOn (withRegs [(5, 0x02)]) 0xF518
    (fun t => shows t .none 0x0202 [] && decide (t.st = 0x02) && decide (t.dt = 0)) = true := by decide
theorem test_ldVxK_waits : stepOn (withRegs [(3, 0x55)]) 0xF30A (fun t => shows t .none 0x0200 [(3, 0x55)]) = true := by decide
theorem test_ldVxK_least : stepOn (keyDown 3 (keyDown 7 (withRegs [(3, 0x55)]))) 0xF30A
    (fun t => shows t .none 0x0202 [(3, 0x03)]) = true := by decide
theorem test_tick : (tick { State.reset with dt := 0xFF, st := 0x01 }).dt = 0xFE ∧
    (tick { State.reset with dt := 0xFF, st := 0x01 }).st = 0x00 ∧ (tick State.reset).dt = 0x00 := by decide
theorem test_key_events : (keyDown 7 State.reset).key 7 = true ∧ (keyDown 7 State.reset).key 6 = false ∧
    (keyUp 7 (keyDown 7 State.reset)).keys = State.reset.keys := by decide

/-! ### Index and memory (2.7), load (2.8) -/

theorem test_addI_twelve_bits : stepOn (withData [(2, 0x01)] 0x0FFF 0x300 []) 0xF21E
    (fun t => shows t .none 0x0202 [(15, 0x00)] && decide (t.i = 0x1000)) = true := by decide
theorem test_addI_wraps : stepOn (withData [(2, 0x01)] 0xFFFF 0x300 []) 0xF21E
    (fun t => shows t .none 0x0202 [] && decide (t.i = 0x0000)) = true := by decide
theorem test_ldF : stepOn (withRegs [(2, 0x0F)]) 0xF229 (fun t => decide (t.i = 0x004B)) = true := by decide
theorem test_ldF_not_digit : stepOn (withRegs [(2, 0xFF)]) 0xF229 (fun t => decide (t.i = 0x04FB)) = true := by decide
theorem test_ldB : stepOn (withData [(0, 0xEA)] 0x0300 0x300 []) 0xF033
    (fun t => shows t .none 0x0202 [] && decide (readBytes t.mem 0x300 3 = [0x02, 0x03, 0x04])) = true := by decide
theorem test_ldB_too_high : stepOn (withData [(0, 0x7B)] 0x0FFE 0x300 []) 0xF033 (fun t =>
    shows t (.addrOob 0x0FFE) 0x0202 [] && decide (readBytes t.mem 0xFFE 2 = [0x00, 0x00])) = true := by decide
theorem test_dump : stepOn (withData [(0, 0x11), (1, 0x22), (2, 0x33), (3, 0x44)] 0x0400 0x300 []) 0xF255 (fun t =>
    shows t .none 0x0202 [] && decide (readBytes t.mem 0x400 4 = [0x11, 0x22, 0x33, 0x00]) && decide (t.i = 0x0400)) = true := by
  decide
theorem test_dump_too_high : stepOn (withData [(0, 0xA0), (15, 0xAF)] 0x0FF1 0x300 []) 0xFF55 (fun t =>
    shows t (.addrOob 0x0FF1) 0x0202 [] && decide (memRead t.mem 0xFF1 = 0x00)) = true := by decide
theorem test_load_regs : stepOn (withData [] 0x0300 0x300 [0x02, 0x03, 0x04, 0x05]) 0xF265 (fun t =>
    shows t .none 0x0202 [(0, 0x02), (1, 0x03), (2, 0x04), (3, 0x00)] && decide (t.i = 0x0300)) = true := by decide
theorem test_load_regs_glyphs : stepOn State.reset 0xFF65 (fun t => decide (t.v.toList =
    [0xF0, 0x90, 0x90, 0x90, 0xF0, 0x20, 0x60, 0x20] ++ [0x20, 0x70, 0xF0, 0x10, 0xF0, 0x80, 0xF0, 0xF0])) = true := by decide
/-- R34, R190: a store and a latch are gone after reset. -/
theorem test_reset_event : answers (applyEvent .reset (keyDown 7 (withData [(0, 0xEA)] 0x0300 0x300 [0x02]))) (fun t =>
    shows t .none 0x0200 [(0, 0x00)] && decide (t.mem = []) && !t.key 7 && decide (t.i = 0)) = true := by decide
theorem test_load_one_byte : readBytes (load [0xAB] State.reset).mem 0x200 2 = [0xAB, 0x00] := by decide
theorem test_memory_drops_default : memWrite (memWrite [] 0x300 0x01) 0x300 0x00 = [] ∧ memWrite [] 0x000 0xF0 = [] := by decide

/-! ### Witnesses: for each statement with hypotheses, values that meet them, clause by clause, at the edges -/

/-- A reset state with a word stored where it fetches. -/
def running (w : Nat) : State := State.reset.withFetchWord 16 w

/-- A state at `pc` 0x0FFE with a word in the last two bytes. -/
def runningAtTop (w : Nat) : State := (atPc 0x0FFE).withFetchWord 16 w

theorem test_witness_DecodeOfEncode : (Instr.drw 15 15 15).wellFormed = true ∧ (Instr.drw 0 0 0).wellFormed = true ∧
    decode (encode (.drw 15 15 15) ++ [0x12]) = .ok (.drw 15 15 15, [0x12]) := by decide
theorem test_witness_EncodeOfDecode : decodeWord 0xDFFF = some (.drw 15 15 15) ∧ decodeWord 0x00E0 = some .cls := by decide
theorem test_witness_KnownWordsMatchOneRow : decodeWord 0xF065 = some (.loadRegs 0) ∧
    (⟨0xF0FF, 0xF065⟩ : OpcodeRow) ∈ opcodeRows ∧ (0xFF65 &&& 0xF0FF : Word) = 0xF065 := by decide
theorem test_witness_UnknownWordsByGroup : decodeWord 0x0000 = none ∧ decodeWord 0x5001 = none ∧ decodeWord 0x8008 = none ∧
    decodeWord 0x9001 = none ∧ decodeWord 0xE000 = none ∧ decodeWord 0xF0FF = none := by decide
theorem test_witness_StepRunsDecodedInstruction : (runningAtTop 0x6A01).pc.toNat + 1 = 4095 ∧
    decode [memRead (runningAtTop 0x6A01).mem 4094, memRead (runningAtTop 0x6A01).mem 4095] = .ok (.ldImm 10 0x01, []) := by decide
theorem test_witness_PlacedWordIsRun : (atPc 0x0FFE).pc.toNat + 1 = 4095 ∧ decodeWord 0x6A01 = some (.ldImm 10 0x01) := by decide
theorem test_witness_FailedFetchChangesNothing : (atPc 0x0FFF).pc.toNat > 4094 ∧ (atPc 0xFFFF).pc.toNat > 4094 := by decide
theorem test_witness_UnknownWordIsReportedNoOp : (atPc 0x0FFE).pc.toNat + 1 ≤ 4095 ∧
    decode [memRead (atPc 0x0FFE).mem 4094, memRead (atPc 0x0FFE).mem 4095] = .error (.unknown 0x0000) := by decide
theorem test_witness_StepLeavesPcAsTabled :
    ((∃ t, step (running 0x1ABC) = .next t) ∧ fetchWord (running 0x1ABC) = some 0x1ABC ∧ decodeWord 0x1ABC = some (.jp 0xABC)) ∧
    ((∃ t, step State.reset = .next t) ∧ fetchWord State.reset = some 0x0000 ∧ decodeWord 0x0000 = none) ∧
    ((∃ t, step (atPc 0x0FFF) = .next t) ∧ fetchWord (atPc 0x0FFF) = none) :=
  ⟨⟨⟨_, rfl⟩, by decide, by decide⟩, ⟨⟨_, rfl⟩, by decide, by decide⟩, ⟨⟨_, rfl⟩, by decide⟩⟩
theorem test_witness_ReportIsTheOneCondition : (∃ t, exec (.skp 2) (withRegs [(2, 0x10)]) = .next t) ∧
    (∃ t, exec (.skp 2) (withRegs [(2, 0x0F)]) = .next t) := ⟨⟨_, rfl⟩, ⟨_, rfl⟩⟩
theorem test_witness_ConditionsAreNoOps : (1 > 0 ∧ (withData [] 4096 0 []).i.toNat + 1 - 1 > 4095) ∧
    (15 > 0 ∧ (withData [] 4082 0 []).i.toNat + 15 - 1 > 4095) ∧ (withData [] 4094 0 []).i.toNat + 2 > 4095 ∧
    (withData [] 4096 0 []).i.toNat + (0 : Fin 16).val > 4095 ∧ (withData [] 4081 0 []).i.toNat + (15 : Fin 16).val > 4095 ∧
    (withSp 16).sp.val = 16 ∧ (withSp 0).sp.val = 0 := by decide
theorem test_witness_ConditionsArePrecise :
    (∃ t, step (atPc 0x0FFF) = .next t ∧ t.report ≠ .none) ∧ (∃ t, step State.reset = .next t ∧ t.report ≠ .none) :=
  ⟨⟨_, rfl, by decide⟩, ⟨_, rfl, by decide⟩⟩
theorem test_witness_InstructionFootprint : (∃ t, exec (.ldImm 3 0x05) State.reset = .next t) ∧
    (∃ t, exec (.dumpRegs 15) (withData [] 4080 0 []) = .next t) ∧ (∃ t, exec (.call 0x300) (withSp 16) = .next t) ∧
    (∃ t, exec .ret (withSp 16) = .next t) ∧ (touchesOf .ret (withSp 16)).stack = false :=
  ⟨⟨_, rfl⟩, ⟨_, rfl⟩, ⟨_, rfl⟩, ⟨_, rfl⟩, rfl⟩
theorem test_witness_VfIsWrittenAsFlagBySixOnly :
    (∃ t, exec (.addReg 0 1) State.reset = .next t ∧ writesFlag (.addReg 0 1) = true ∧ t.report = .none) ∧
    (∃ t, exec (.orReg 0 1) State.reset = .next t ∧ writesFlag (.orReg 0 1) = false ∧
      (15 : Fin 16) ∉ (touchesOf (.orReg 0 1) State.reset).regs) :=
  ⟨⟨_, rfl, by decide, by decide⟩, ⟨_, rfl, by decide, by decide⟩⟩
theorem test_witness_StepWritersOfSharedState :
    answers (step ((withRegs [(4, 0x3C)]).withFetchWord 16 0xF415)) (fun t => decide (t.dt ≠ 0)) = true ∧
    answers (step ((withRegs [(4, 0x3C)]).withFetchWord 16 0xF418)) (fun t => decide (t.st ≠ 0)) = true ∧
    answers (step ((withRegs [(0, 0x3C)]).withFetchWord 16 0xF055)) (fun t => decide (memRead t.mem 0 ≠ memRead [] 0)) = true := by
  decide
theorem test_witness_SoundTimerIsNeverRead : ∃ t, step (running 0xF118) = .next t := ⟨_, rfl⟩
theorem test_witness_DeadStackEntriesAreUnobservable :
    (let s := (withSp 1).withFetchWord 16 0x00EE
     SameButDead s { s with stack := s.stack.set 1 0xABCD }) ∧ ∃ t, step ((withSp 1).withFetchWord 16 0x00EE) = .next t :=
  ⟨⟨rfl, by decide⟩, ⟨_, rfl⟩⟩
theorem test_witness_StepKeepsMemoryCanonical : (running 0xF055).inv ∧ ∃ t, step (running 0xF055) = .next t :=
  ⟨by decide, ⟨_, rfl⟩⟩
theorem test_witness_SchedulesKeepMemoryCanonical : State.reset.inv ∧ (running 0xF055).inv := by decide
theorem test_witness_CallPushesReturnAddress : (withSp 15).sp.val < 16 ∧ (withSp 16).sp.val = 16 := by decide
theorem test_witness_ReturnPopsPc : (withSp 1).sp.val > 0 ∧ (withSp 0).sp.val = 0 := by decide
theorem test_witness_CallReturnRoundTrip : (withSp 15).sp.val < 16 ∧
    ∃ t u : State, exec (.call 0x300) (withSp 15) = .next t ∧ u.sp = t.sp ∧ u.stack = t.stack := ⟨by decide, _, _, rfl, rfl, rfl⟩
theorem test_witness_RegisterSkips : (1#4 : BitVec 4) ≠ 0 ∧ (15#4 : BitVec 4) ≠ 0 := by decide
theorem test_witness_RandomIsMaskedFreeByte : (0x0F#8 : Byte).getLsbD 4 = false ∧ (0x0F#8 : Byte).getLsbD 7 = false := by decide
theorem test_witness_AluResultClauses : (0 : Fin 16) ≠ 15 ∧ (14 : Fin 16) ≠ 15 := by decide
theorem test_witness_DrawTogglesSpritePixels : (0 ≤ 15 ∧ (0 = 0 ∨ (withData [] 0xFFFF 0 []).i.toNat + 0 - 1 ≤ 4095)) ∧
    (15 ≤ 15 ∧ (withData [] 4081 0 []).i.toNat + 15 - 1 ≤ 4095) ∧
    spriteBit (withData [] 0x300 0x300 [0x01]).mem 0x300 1 60 31 3 31 ∧ ¬spriteBit [] 0x300 0 60 31 3 31 :=
  ⟨by decide, by decide, ⟨0, 7, by decide, by decide, by decide, by decide, by decide⟩,
    fun ⟨_, _, h, _⟩ => absurd h (Nat.not_lt_zero _)⟩
theorem test_witness_DrawTwiceRestoresDisplay : (15 ≤ 15 ∧ (withData [] 4081 0 []).i.toNat + 15 - 1 ≤ 4095) ∧
    (0 : Fin 16) ≠ 15 ∧ (14 : Fin 16) ≠ 15 ∧ ∃ t, exec (.drw 0 14 15) (withData [] 4081 0 []) = .next t :=
  ⟨by decide, by decide, by decide, ⟨_, rfl⟩⟩
theorem test_witness_KeypadSkips : ((withRegs [(2, 0x0F)]).getV 2).toNat = (15 : Fin 16).val ∧
    ((withRegs [(2, 0x00)]).getV 2).toNat = (0 : Fin 16).val ∧ ((withRegs [(2, 0x10)]).getV 2).toNat > 15 := by decide
theorem test_witness_WaitKeyTakesLeastLatch : ((keyDown 15 State.reset).key 15 = true ∧
    ∀ j : Fin 16, j < 15 → (keyDown 15 State.reset).key j = false) ∧
    ((keyDown 0 (keyDown 15 State.reset)).key 0 = true) ∧ (∀ k : Fin 16, State.reset.key k = false) := by decide
theorem test_witness_WaitingStepChangesNothing : Waiting (running 0xF30A) ∧ Waiting (runningAtTop 0xFF0A) :=
  ⟨⟨⟨3, by decide⟩, by decide⟩, ⟨⟨15, by decide⟩, by decide⟩⟩
theorem test_witness_DecimalStore : (withData [] 4093 0 []).i.toNat + 2 ≤ 4095 := by decide
theorem test_witness_RegisterDump : (withData [] 4080 0 []).i.toNat + (15 : Fin 16).val ≤ 4095 ∧
    (withData [] 4095 0 []).i.toNat + (0 : Fin 16).val ≤ 4095 := by decide
theorem test_witness_RegisterLoad : (withData [] 4080 0 []).i.toNat + (15 : Fin 16).val ≤ 4095 ∧
    (withData [] 4095 0 []).i.toNat + (0 : Fin 16).val ≤ 4095 ∧ (14 : Fin 16) < 15 := by decide
theorem test_witness_DumpLoadRoundTrip : (withData [] 4080 0 []).i.toNat + (15 : Fin 16).val ≤ 4095 ∧
    ∃ t u : State, exec (.dumpRegs 15) (withData [] 4080 0 []) = .next t ∧ u.mem = t.mem ∧ u.i = (withData [] 4080 0 []).i :=
  ⟨by decide, _, _, rfl, rfl, rfl⟩
theorem test_witness_StoreIsSeenByNextFetch : 1 ≤ (1 : Fin 16).val ∧ (withData [] 4094 0 []).i.toNat + (1 : Fin 16).val ≤ 4095 ∧
    ∃ t, exec (.dumpRegs 1) (withData [] 4094 0 []) = .next t := ⟨by decide, by decide, ⟨_, rfl⟩⟩
/-- The two ends of the accepted image lengths, for `LoadWritesImage` and `LaunchLeavesBootState`. -/
theorem test_witness_LoadWritesImage : (1 ≤ [0xAB#8].length ∧ [0xAB#8].length ≤ 3584) ∧
    (1 ≤ (List.replicate 3584 0xAB#8).length ∧ (List.replicate 3584 0xAB#8).length ≤ 3584) := by
  rw [List.length_replicate]; decide
theorem test_witness_RejectedLoadWritesNothing :
    ([] : List Byte).length = 0 ∧ (List.replicate 3585 0xAB#8).length > 3584 := by
  rw [List.length_replicate]; decide
theorem test_witness_SelfJumpIsFixedPoint : Ended (running 0x1200) ∧ Ended (runningAtTop 0x1FFE) :=
  ⟨⟨0x200, by decide, by decide⟩, ⟨0xFFE, by decide, by decide⟩⟩

end Sys2Proof.Tests
end

section
/-! SUPPORT. What an instruction answers, said once for all 34 (spec/60_exceptions.md R168 to R170): it completes, or it
reports its one condition and writes nothing else. The preciseness of a step follows. -/

namespace Sys2Proof.Machine

/-! ### Conditions -/

theorem addrCondition_of_le {count : Nat} {s : State} (h : count = 0 ∨ s.i.toNat + count ≤ 4096) :
    addrCondition count s = .none :=
  if_neg (by omega)

theorem addrCondition_of_gt {count : Nat} {s : State} (hc : count ≠ 0) (h : s.i.toNat + count > 4096) :
    addrCondition count s = .addrOob s.i :=
  if_pos (by omega)

theorem keyCondition_of_le {x : Fin 16} {s : State} (h : (s.getV x).toNat ≤ 15) : keyCondition x s = .none :=
  if_neg (by omega)

theorem keyCondition_of_gt {x : Fin 16} {s : State} (h : (s.getV x).toNat > 15) :
    keyCondition x s = .keyOor (s.getV x) :=
  if_pos h

theorem addrCondition_ne_fetchOob (count : Nat) (s : State) (a : Word) : addrCondition count s ≠ .fetchOob a := by
  unfold addrCondition; split <;> exact Report.noConfusion

theorem keyCondition_ne_fetchOob (x : Fin 16) (s : State) (a : Word) : keyCondition x s ≠ .fetchOob a := by
  unfold keyCondition; split <;> exact Report.noConfusion

/-- `FETCH_OOB` is the fetch's own condition: no instruction raises it (R161). -/
theorem conditionOf_ne_fetchOob (i : Instr) (s : State) (a : Word) : conditionOf i s ≠ .fetchOob a := by
  cases i with
  | call nnn => simp only [conditionOf]; split <;> exact Report.noConfusion
  | ret => simp only [conditionOf]; split <;> exact Report.noConfusion
  | drw x y n => exact addrCondition_ne_fetchOob _ _ _
  | ldB x => exact addrCondition_ne_fetchOob _ _ _
  | dumpRegs x => exact addrCondition_ne_fetchOob _ _ _
  | loadRegs x => exact addrCondition_ne_fetchOob _ _ _
  | skp x => exact keyCondition_ne_fetchOob _ _ _
  | sknp x => exact keyCondition_ne_fetchOob _ _ _
  | _ => exact Report.noConfusion

/-! ### What an instruction answers -/

/-- Outcome `o` of instruction `i` in state `s` is completion, or the instruction's one condition with nothing else
written (R168, R170). -/
def CompletesOrRaises (i : Instr) (s : State) (o : Outcome) : Prop :=
  (conditionOf i s = .none ∧ ∃ t, o = .next t ∧ t.report = .none) ∨
  (conditionOf i s ≠ .none ∧ o = .next { s with report := conditionOf i s })

theorem completesOrRaises_of_none {i : Instr} {s t : State} {o : Outcome} (hc : conditionOf i s = .none)
    (ho : o = .next t) (ht : t.report = .none) : CompletesOrRaises i s o :=
  .inl ⟨hc, t, ho, ht⟩

theorem completesOrRaises_of_raise {i : Instr} {s : State} {o : Outcome} {c : Report} (hc : conditionOf i s = c)
    (hne : c ≠ .none) (ho : o = .next { s with report := c }) : CompletesOrRaises i s o := by
  subst hc; exact .inr ⟨hne, ho⟩

/-- Everything an instruction can answer. Only the eight instructions with a condition branch on it; `LD Vx,K` completes
on both of its branches. -/
theorem exec_completesOrRaises (i : Instr) (s : State) : CompletesOrRaises i s (exec i s) := by
  cases i with
  | call nnn =>
    rcases execCall_cases nnn s with ⟨h, e⟩ | ⟨h, e⟩
    · exact completesOrRaises_of_none (if_neg (by omega)) e rfl
    · exact completesOrRaises_of_raise (if_pos h) Report.noConfusion e
  | ret =>
    rcases execRet_cases s with ⟨_, h, e⟩ | ⟨h, e⟩
    · exact completesOrRaises_of_none (if_neg (by omega)) e rfl
    · exact completesOrRaises_of_raise (if_pos h) Report.noConfusion e
  | drw x y n =>
    rcases execDrw_cases x y n s with ⟨h, e⟩ | ⟨hn, h, e⟩
    · exact completesOrRaises_of_none (addrCondition_of_le h) e rfl
    · exact completesOrRaises_of_raise (addrCondition_of_gt hn (by omega)) Report.noConfusion e
  | ldB x =>
    rcases execLdB_cases x s with ⟨h, e⟩ | ⟨h, e⟩
    · exact completesOrRaises_of_none (addrCondition_of_le (by omega)) e rfl
    · exact completesOrRaises_of_raise (addrCondition_of_gt (by omega) (by omega)) Report.noConfusion e
  | dumpRegs x =>
    rcases execDumpRegs_cases x s with ⟨h, e⟩ | ⟨h, e⟩
    · exact completesOrRaises_of_none (addrCondition_of_le (by omega)) e rfl
    · exact completesOrRaises_of_raise (addrCondition_of_gt (by omega) (by omega)) Report.noConfusion e
  | loadRegs x =>
    rcases execLoadRegs_cases x s with ⟨h, e⟩ | ⟨h, e⟩
    · exact completesOrRaises_of_none (addrCondition_of_le (by omega)) e rfl
    · exact completesOrRaises_of_raise (addrCondition_of_gt (by omega) (by omega)) Report.noConfusion e
  | skp x =>
    rcases execSkp_cases x s with ⟨k, h, e⟩ | ⟨h, e⟩
    · exact completesOrRaises_of_none (keyCondition_of_le (by omega)) e rfl
    · exact completesOrRaises_of_raise (keyCondition_of_gt h) Report.noConfusion e
  | sknp x =>
    rcases execSknp_cases x s with ⟨k, h, e⟩ | ⟨h, e⟩
    · exact completesOrRaises_of_none (keyCondition_of_le (by omega)) e rfl
    · exact completesOrRaises_of_raise (keyCondition_of_gt h) Report.noConfusion e
  | ldVxK x =>
    rcases execLdVxK_cases x s with ⟨k, _, _, e⟩ | ⟨_, e⟩
    · exact completesOrRaises_of_none rfl e rfl
    · exact completesOrRaises_of_none rfl e rfl
  | _ => exact completesOrRaises_of_none rfl rfl rfl

/-- An instruction that reports a condition has written nothing but the report (R11, R169). -/
theorem eq_of_exec_reports {i : Instr} {s t : State} (h : exec i s = .next t) (hr : t.report ≠ .none) :
    t = { s with report := conditionOf i s } := by
  rcases exec_completesOrRaises i s with ⟨_, u, e, hu⟩ | ⟨_, e⟩
  · rw [h, Host.Outcome.next.injEq] at e
    exact absurd (e ▸ hu) hr
  · rwa [h, Host.Outcome.next.injEq] at e

/-! ### What a step that reports has changed -/

/-- Settles O14: the report is the fetch's, the decoder's, or the one condition of the instruction, and each case of `step`
writes at most `pc` beside it. -/
theorem conditionsArePrecise : Obligations.ConditionsArePrecise := by
  intro s t h hr
  rcases step_cases s with ⟨_, e⟩ | ⟨w, _, _, e⟩ | ⟨w, i, _, _, e⟩ <;> rw [h] at e
  · obtain rfl := Host.Outcome.next.inj e
    exact .inl ⟨rfl, rfl⟩
  · obtain rfl := Host.Outcome.next.inj e
    exact .inr ⟨rfl, fun _ => Report.noConfusion⟩
  · obtain rfl := eq_of_exec_reports e.symm hr
    exact .inr ⟨rfl, conditionOf_ne_fetchOob i _⟩

end Sys2Proof.Machine
end

section
/-! SUPPORT. What every instruction answers, and what it may change (spec/10_state.md R36), said once for all 34. The
statements of the state's family that speak of writers (R21, R27, R28, R30, R31, R36) are read off it. -/

namespace Sys2Proof.Machine

/-- Outcome `o` is a next state, and `P` holds of it. -/
def EndsIn (o : Outcome) (P : State → Prop) : Prop := ∃ t, o = .next t ∧ P t

theorem EndsIn.of_next {o : Outcome} {P : State → Prop} {t : State} (h : EndsIn o P) (e : o = .next t) : P t := by
  obtain ⟨u, e', hu⟩ := h
  obtain rfl := Host.Outcome.next.inj (e.symm.trans e')
  exact hu

/-! ### Frames of the remaining writes -/

/-- A skip touches `pc`, taken or not. -/
theorem frame_skipIf (s : State) (c : Bool) : Frame { pc := true } s { s.skipIf c with report := .none } := by
  rw [skipIf_eq]
  exact frame_pc s _

/-- A display write touches the display. -/
theorem frame_fb (s : State) (fb : Framebuffer) : Frame { display := true } s { s with fb := fb, report := .none } :=
  { frame_report {} s .none with display := nofun }

/-- A draw touches VF and the display. -/
theorem frame_draw (s : State) (b : Byte) (fb : Framebuffer) :
    Frame { regs := [15], display := true } s { s.setV vf b with fb := fb, report := .none } :=
  { frame_setV s vf b with display := nofun }

/-- A random byte touches its register and the count of draws. -/
theorem frame_rnd (s : State) (x : Fin 16) (b : Byte) (n : Nat) :
    Frame { regs := [x], draws := true } s { s.setV x b with draws := n, report := .none } :=
  { frame_setV s x b with draws := nofun }

/-- A delay timer write touches DT. -/
theorem frame_dt (s : State) (b : Byte) : Frame { dt := true } s { s with dt := b, report := .none } :=
  { frame_report {} s .none with dt := nofun }

/-- A sound timer write touches ST. -/
theorem frame_st (s : State) (b : Byte) : Frame { st := true } s { s with st := b, report := .none } :=
  { frame_report {} s .none with st := nofun }

/-- A register load of `x + 1` bytes touches V0..Vx. -/
theorem frame_setRegsFrom (s : State) (x : Fin 16) {bs : List Byte} (hl : bs.length = x.val + 1) :
    Frame { regs := (List.finRange 16).filter (fun k => decide (k ≤ x)) } s
      { setRegsFrom s 0 bs with report := .none } := by
  have hregs : ∀ r : Fin 16, r ∉ (List.finRange 16).filter (fun k => decide (k ≤ x)) →
      (setRegsFrom s 0 bs).getV r = s.getV r := by
    intro r hr
    have hr : x < r := by simpa using hr
    rw [getV_setRegsFrom, List.getElem?_eq_none (by omega)]
    simp
  rw [setRegsFrom_eq]
  exact { frame_report {} s .none with regs := hregs }

/-- The either/or of `LD Vx,K` is within the frame of both its writes. -/
theorem frame_waitKey_of_key (s : State) (x : Fin 16) (b : Byte) :
    Frame { regs := [x], pc := true } s { s.setV x b with report := .none } :=
  { frame_setV s x b with pc := nofun }

theorem frame_waitKey_of_rewind (s : State) (x : Fin 16) (a : Word) :
    Frame { regs := [x], pc := true } s { s with pc := a, report := .none } :=
  { frame_pc s a with regs := fun _ _ => rfl }

/-- A store of `n` bytes through I touches I..I + n - 1. -/
theorem frame_store (s : State) {bs : List Byte} {n : Nat} (hl : bs.length = n) :
    Frame { memBase := s.i.toNat, memCount := n } s
      { s with mem := writeBytes s.mem s.i.toNat bs, report := .none } :=
  hl ▸ frame_writeBytes s s.i.toNat bs

/-! ### The footprint of an instruction -/

/-- Every instruction answers a next state within its entry of R36. -/
theorem exec_frame (i : Instr) (s : State) : EndsIn (exec i s) (Frame (touchesOf i s) s) := by
  cases i with
  | cls => exact ⟨_, rfl, frame_fb s _⟩
  | jp _ | jpV0 _ => exact ⟨_, rfl, frame_pc s _⟩
  | seImm _ _ | sneImm _ _ | seReg _ _ | sneReg _ _ => exact ⟨_, rfl, frame_skipIf s _⟩
  | ldImm x _ | addImm x _ | ldReg x _ | orReg x _ | andReg x _ | xorReg x _ | ldVxDt x =>
    exact ⟨_, rfl, frame_setV s x _⟩
  | addReg x _ | subReg x _ | shr x _ | subnReg x _ | shl x _ => exact ⟨_, rfl, frame_writeResultFlag s x _ _⟩
  | ldI _ | addI _ | ldF _ => exact ⟨_, rfl, frame_i s _⟩
  | rnd x _ => exact ⟨_, rfl, frame_rnd s x _ _⟩
  | ldDtVx _ => exact ⟨_, rfl, frame_dt s _⟩
  | ldStVx _ => exact ⟨_, rfl, frame_st s _⟩
  | call nnn =>
    rcases execCall_cases nnn s with ⟨h, e⟩ | ⟨_, e⟩
    · exact ⟨_, e, frame_call s h _ _⟩
    · exact ⟨_, e, frame_report _ s _⟩
  | ret =>
    rcases execRet_cases s with ⟨_, _, e⟩ | ⟨_, e⟩
    · exact ⟨_, e, frame_ret s _ _⟩
    · exact ⟨_, e, frame_report _ s _⟩
  | drw x y n =>
    rcases execDrw_cases x y n s with ⟨_, e⟩ | ⟨_, _, e⟩
    · exact ⟨_, e, frame_draw s _ _⟩
    · exact ⟨_, e, frame_report _ s _⟩
  | skp x =>
    rcases execSkp_cases x s with ⟨_, _, e⟩ | ⟨_, e⟩
    · exact ⟨_, e, frame_pc s _⟩
    · exact ⟨_, e, frame_report _ s _⟩
  | sknp x =>
    rcases execSknp_cases x s with ⟨_, _, e⟩ | ⟨_, e⟩
    · exact ⟨_, e, frame_pc s _⟩
    · exact ⟨_, e, frame_report _ s _⟩
  | ldVxK x =>
    rcases execLdVxK_cases x s with ⟨_, _, _, e⟩ | ⟨_, e⟩
    · exact ⟨_, e, frame_waitKey_of_key s x _⟩
    · exact ⟨_, e, frame_waitKey_of_rewind s x _⟩
  | ldB x =>
    rcases execLdB_cases x s with ⟨_, e⟩ | ⟨_, e⟩
    · exact ⟨_, e, frame_store s (decimalDigits_length _)⟩
    · exact ⟨_, e, frame_report _ s _⟩
  | dumpRegs x =>
    rcases execDumpRegs_cases x s with ⟨_, e⟩ | ⟨_, e⟩
    · exact ⟨_, e, frame_store s (regsUpTo_length s x)⟩
    · exact ⟨_, e, frame_report _ s _⟩
  | loadRegs x =>
    rcases execLoadRegs_cases x s with ⟨_, e⟩ | ⟨_, e⟩
    · exact ⟨_, e, frame_setRegsFrom s x (readBytes_length _ _ _)⟩
    · exact ⟨_, e, frame_report _ s _⟩

/-- Settles O15: each instruction's writes are one of the shared writes, or a condition, which writes the report alone. -/
theorem instructionFootprint : Obligations.InstructionFootprint :=
  fun i s _ h => (exec_frame i s).of_next h

/-! ### VF as a flag -/

theorem flagByte_cases (c : Bool) : flagByte c = 0x00 ∨ flagByte c = 0x01 := by
  cases c
  · exact .inl rfl
  · exact .inr rfl

/-- A result with a flag leaves VF the flag, whatever its register (R22). -/
theorem getV_vf_writeResultFlag (s : State) (x : Fin 16) (r : Byte) (c : Bool) :
    (s.writeResultFlag x r c).getV vf = flagByte c := by
  rw [getV_writeResultFlag, if_pos rfl]

/-- A flag writer that completes leaves a flag in VF (R21). -/
theorem exec_vf_isFlag {i : Instr} (hw : writesFlag i = true) (s : State) :
    EndsIn (exec i s) fun t => t.report = .none → ∃ c, t.getV 15 = flagByte c := by
  cases i with
  | addReg x _ | subReg x _ | shr x _ | subnReg x _ | shl x _ =>
    exact ⟨_, rfl, fun _ => ⟨_, getV_vf_writeResultFlag s x _ _⟩⟩
  | drw x y n =>
    rcases execDrw_cases x y n s with ⟨_, e⟩ | ⟨_, _, e⟩
    · exact ⟨_, e, fun _ => ⟨_, getV_setV_self s vf _⟩⟩
    · exact ⟨_, e, nofun⟩
  | _ => exact absurd hw Bool.false_ne_true

/-- Settles O16: a flag writer writes the flag last, and every other instruction's frame leaves VF. -/
theorem vfIsWrittenAsFlagBySixOnly : Obligations.VfIsWrittenAsFlagBySixOnly := by
  intro i s t h
  refine ⟨fun hw hr => ?_, fun _ hv => ((exec_frame i s).of_next h).regs 15 hv⟩
  obtain ⟨c, hc⟩ := (exec_vf_isFlag hw s).of_next h hr
  exact hc ▸ flagByte_cases c

/-! ### The writers of timers and memory -/

theorem eq_ldDtVx_of_touches {i : Instr} {s : State} (h : (touchesOf i s).dt = true) : ∃ x, i = .ldDtVx x := by
  cases i with
  | ldDtVx x => exact ⟨x, rfl⟩
  | _ => exact absurd h Bool.false_ne_true

theorem eq_ldStVx_of_touches {i : Instr} {s : State} (h : (touchesOf i s).st = true) : ∃ x, i = .ldStVx x := by
  cases i with
  | ldStVx x => exact ⟨x, rfl⟩
  | _ => exact absurd h Bool.false_ne_true

theorem eq_store_of_touches {i : Instr} {s : State} (h : (touchesOf i s).memCount ≠ 0) :
    ∃ x, i = .ldB x ∨ i = .dumpRegs x := by
  cases i with
  | ldB x => exact ⟨x, .inl rfl⟩
  | dumpRegs x => exact ⟨x, .inr rfl⟩
  | _ => exact absurd rfl h

section Writers
variable {i : Instr} {s t : State} (h : exec i s = .next t)
include h

theorem exec_writes_dt (hd : t.dt ≠ s.dt) : ∃ x, i = .ldDtVx x ∧ t.dt = s.getV x := by
  have ht : (touchesOf i s).dt = true :=
    Bool.of_not_eq_false fun hf => hd (((exec_frame i s).of_next h).dt hf)
  obtain ⟨x, rfl⟩ := eq_ldDtVx_of_touches ht
  obtain rfl := complete_eq_next.1 h
  exact ⟨x, rfl, rfl⟩

theorem exec_writes_st (hd : t.st ≠ s.st) : ∃ x, i = .ldStVx x ∧ t.st = s.getV x := by
  have ht : (touchesOf i s).st = true :=
    Bool.of_not_eq_false fun hf => hd (((exec_frame i s).of_next h).st hf)
  obtain ⟨x, rfl⟩ := eq_ldStVx_of_touches ht
  obtain rfl := complete_eq_next.1 h
  exact ⟨x, rfl, rfl⟩

theorem exec_writes_mem {a : Nat} (hd : memRead t.mem a ≠ memRead s.mem a) :
    ∃ x, i = .ldB x ∨ i = .dumpRegs x :=
  eq_store_of_touches (s := s) fun hc => hd (((exec_frame i s).of_next h).mem a (by omega))
end Writers

/-- Settles O17: a step that runs no instruction writes no shared piece of state, and one that does writes what the
instruction's frame allows. -/
theorem stepWritersOfSharedState : Obligations.StepWritersOfSharedState := by
  intro s t h
  rcases step_cases s with ⟨_, e⟩ | ⟨w, _, _, e⟩ | ⟨w, i, hf, hd, e⟩ <;> rw [h] at e
  · obtain rfl := Host.Outcome.next.inj e
    exact ⟨fun _ => rfl, absurd rfl, absurd rfl, fun _ => absurd rfl⟩
  · obtain rfl := Host.Outcome.next.inj e
    exact ⟨fun _ => rfl, absurd rfl, absurd rfl, fun _ => absurd rfl⟩
  · refine ⟨((exec_frame i _).of_next e.symm).keys, fun hc => ?_, fun hc => ?_, fun a hc => ?_⟩
    · obtain ⟨x, rfl, hx⟩ := exec_writes_dt e.symm hc
      exact ⟨w, x, hf, hd, hx⟩
    · obtain ⟨x, rfl, hx⟩ := exec_writes_st e.symm hc
      exact ⟨w, x, hf, hd, hx⟩
    · obtain ⟨x, rfl | rfl⟩ := exec_writes_mem e.symm hc
      · exact ⟨w, x, hf, .inl hd⟩
      · exact ⟨w, x, hf, .inr hd⟩

end Sys2Proof.Machine
end

section
/-! SUPPORT. Memory under a step (spec/10_state.md R31, R35; spec/20_memory.md R51): left alone, or stored to in range. -/

namespace Sys2Proof.Machine

/-- Every instruction leaves memory as it is, or stores bytes from I that all have an address of the space (R60). -/
theorem exec_mem (i : Instr) (s : State) : EndsIn (exec i s) fun t => t.mem = s.mem ∨
    ∃ bs : List Byte, s.i.toNat + bs.length ≤ Config.memSize ∧ t.mem = writeBytes s.mem s.i.toNat bs := by
  cases i with
  | ldB x =>
    rcases execLdB_cases x s with ⟨h, e⟩ | ⟨_, e⟩
    · exact ⟨_, e, .inr ⟨decimalDigits (s.getV x), by rw [decimalDigits_length, Config.memSize]; omega, rfl⟩⟩
    · exact ⟨_, e, .inl rfl⟩
  | dumpRegs x =>
    rcases execDumpRegs_cases x s with ⟨h, e⟩ | ⟨_, e⟩
    · exact ⟨_, e, .inr ⟨regsUpTo s x, by rw [regsUpTo_length, Config.memSize]; omega, rfl⟩⟩
    · exact ⟨_, e, .inl rfl⟩
  | loadRegs x =>
    rcases execLoadRegs_cases x s with ⟨_, e⟩ | ⟨_, e⟩
    · exact ⟨_, e, .inl (by rw [setRegsFrom_eq])⟩
    · exact ⟨_, e, .inl rfl⟩
  | call nnn => rcases execCall_cases nnn s with ⟨_, e⟩ | ⟨_, e⟩ <;> exact ⟨_, e, .inl rfl⟩
  | ret => rcases execRet_cases s with ⟨_, _, e⟩ | ⟨_, e⟩ <;> exact ⟨_, e, .inl rfl⟩
  | drw x y n => rcases execDrw_cases x y n s with ⟨_, e⟩ | ⟨_, _, e⟩ <;> exact ⟨_, e, .inl rfl⟩
  | skp x => rcases execSkp_cases x s with ⟨_, _, e⟩ | ⟨_, e⟩ <;> exact ⟨_, e, .inl rfl⟩
  | sknp x => rcases execSknp_cases x s with ⟨_, _, e⟩ | ⟨_, e⟩ <;> exact ⟨_, e, .inl rfl⟩
  | ldVxK x => rcases execLdVxK_cases x s with ⟨_, _, _, e⟩ | ⟨_, e⟩ <;> exact ⟨_, e, .inl rfl⟩
  | seImm _ _ | sneImm _ _ | seReg _ _ | sneReg _ _ => exact ⟨_, rfl, .inl (by rw [skipIf_eq]; rfl)⟩
  | _ => exact ⟨_, rfl, .inl rfl⟩

/-- Every instruction keeps the canonical form of memory. -/
theorem exec_keeps_inv {i : Instr} {s t : State} (hs : s.inv) (h : exec i s = .next t) : t.inv := by
  rcases (exec_mem i s).of_next h with e | ⟨bs, hb, e⟩
  · rwa [State.inv, e]
  · rw [State.inv, e]
    exact writeBytes_wf hs hb

/-- Settles O21: memory after a step is the memory before it, or that memory with bytes stored at addresses of the space. -/
theorem stepKeepsMemoryCanonical : Obligations.StepKeepsMemoryCanonical := by
  intro s t hs h
  rcases step_cases s with ⟨_, e⟩ | ⟨w, _, _, e⟩ | ⟨w, i, _, _, e⟩ <;> rw [h] at e
  · obtain rfl := Host.Outcome.next.inj e
    exact hs
  · obtain rfl := Host.Outcome.next.inj e
    exact hs
  · exact exec_keeps_inv (s := s.advancePc) hs e.symm

end Sys2Proof.Machine
end

section
/-! SUPPORT. Where a step leaves `pc` (spec/10_state.md R24): the terms of `pcAfter`, each tied to the operation it tables. -/

namespace Sys2Proof.Machine

/-- A skip run from the post-fetch `pc` leaves A + 4 or A + 2. -/
theorem pcAfterSkip_eq (c : Bool) (a : Word) : pcAfterSkip c a = if c then a + 2 + 2 else a + 2 := by
  rw [pcAfterSkip, BitVec.add_assoc]
  rfl

theorem skipIf_advancePc_pc (s : State) (c : Bool) : (s.advancePc.skipIf c).pc = pcAfterSkip c s.pc := by
  rw [skipIf_pc, pcAfterSkip_eq]
  rfl

theorem offsetTarget_eq (s : State) (nnn : BitVec 12) :
    offsetTarget s nnn = BitVec.ofNat 16 (nnn.toNat + (s.getV 0).toNat) := by
  rw [BitVec.ofNat_add, BitVec.ofNat_toNat, BitVec.ofNat_toNat]
  rfl

/-- The latch a byte up to 15 names (R141). -/
theorem keyDownAt_eq_key {s : State} {b : Byte} {k : Fin 16} (h : b.toNat = k.val) : keyDownAt s b = s.key k := by
  simp [keyDownAt, State.key, h]

theorem anyKey_eq_true_iff (s : State) : anyKey s = true ↔ ∃ k, s.key k = true := by
  simp [anyKey, State.key, Fin.exists_iff, Vector.any_eq_true]

theorem pcAfter_ret_of_pos {s : State} {a : Word} (h : 0 < s.sp.val) :
    pcAfter .ret s a = s.stack[s.sp.val - 1]'(by omega) := by
  have hi : s.sp.val - 1 < 16 := by omega
  rw [pcAfter, if_neg (by omega), Vector.getElem?_eq_getElem hi, Option.getD_some]

section KeypadSkips
variable {s : State} {x : Fin 16} {a : Word}

theorem pcAfter_skp_of_key {k : Fin 16} (h : (s.getV x).toNat = k.val) :
    pcAfter (.skp x) s a = if s.key k then a + 2 + 2 else a + 2 := by
  rw [pcAfter, keyDownAt_eq_key h, decide_eq_true (by omega), Bool.true_and, pcAfterSkip_eq]

theorem pcAfter_sknp_of_key {k : Fin 16} (h : (s.getV x).toNat = k.val) :
    pcAfter (.sknp x) s a = if s.key k then a + 2 else a + 2 + 2 := by
  rw [pcAfter, keyDownAt_eq_key h, decide_eq_true (by omega), Bool.true_and, pcAfterSkip_eq]
  cases s.key k <;> rfl

theorem pcAfter_skp_of_gt (h : (s.getV x).toNat > 15) : pcAfter (.skp x) s a = a + 2 := by
  rw [pcAfter, decide_eq_false (by omega)]
  rfl

theorem pcAfter_sknp_of_gt (h : (s.getV x).toNat > 15) : pcAfter (.sknp x) s a = a + 2 := by
  rw [pcAfter, decide_eq_false (by omega)]
  rfl
end KeypadSkips

/-- With no latch true, the rewind takes back the advance (R146). -/
theorem pcAfter_ldVxK_of_none {s : State} {a : Word} (x : Fin 16) (h : ∀ k, s.key k = false) :
    pcAfter (.ldVxK x) s a = a + 2 - 2 := by
  have hk : ¬ anyKey s = true := by simp [anyKey_eq_true_iff, h]
  rw [pcAfter, if_neg hk, BitVec.add_sub_cancel]

/-- Every instruction run after the fetch from A = `s.pc` leaves `pc` as R24 tables it. The instructions whose entry in R36
does not name `pc` leave the A + 2 of the fetch. -/
theorem exec_pc (i : Instr) (s : State) : EndsIn (exec i s.advancePc) fun t => t.pc = pcAfter i s s.pc := by
  cases i with
  | jp _ => exact ⟨_, rfl, rfl⟩
  | jpV0 nnn => exact ⟨_, rfl, offsetTarget_eq s nnn⟩
  | seImm _ _ | seReg _ _ => exact ⟨_, rfl, skipIf_advancePc_pc s _⟩
  | sneImm x nn =>
    have hc : decide (s.getV x ≠ nn) = (s.getV x != nn) := decide_not
    exact ⟨_, rfl, hc ▸ skipIf_advancePc_pc s _⟩
  | sneReg x y =>
    have hc : decide (s.getV x ≠ s.getV y) = (s.getV x != s.getV y) := decide_not
    exact ⟨_, rfl, hc ▸ skipIf_advancePc_pc s _⟩
  | call nnn =>
    rcases execCall_cases nnn s.advancePc with ⟨h, e⟩ | ⟨h, e⟩
    · exact ⟨_, e, (if_pos h).symm⟩
    · exact ⟨_, e, (if_neg fun hlt : s.sp.val < 16 => absurd h (Nat.ne_of_lt hlt)).symm⟩
  | ret =>
    rcases execRet_cases s.advancePc with ⟨_, h, e⟩ | ⟨h, e⟩
    · exact ⟨_, e, (pcAfter_ret_of_pos h).symm⟩
    · exact ⟨_, e, (if_pos h).symm⟩
  | skp x =>
    rcases execSkp_cases x s.advancePc with ⟨k, h, e⟩ | ⟨h, e⟩
    · exact ⟨_, e, (pcAfter_skp_of_key h).symm⟩
    · exact ⟨_, e, (pcAfter_skp_of_gt h).symm⟩
  | sknp x =>
    rcases execSknp_cases x s.advancePc with ⟨k, h, e⟩ | ⟨h, e⟩
    · exact ⟨_, e, (pcAfter_sknp_of_key h).symm⟩
    · exact ⟨_, e, (pcAfter_sknp_of_gt h).symm⟩
  | ldVxK x =>
    rcases execLdVxK_cases x s.advancePc with ⟨k, h, _, e⟩ | ⟨h, e⟩
    · exact ⟨_, e, (if_pos ((anyKey_eq_true_iff s).2 ⟨k, h⟩)).symm⟩
    · exact ⟨_, e, (pcAfter_ldVxK_of_none x h).symm⟩
  | _ =>
    obtain ⟨t, e, hf⟩ := exec_frame _ s.advancePc
    exact ⟨t, e, hf.pc rfl⟩

/-- Settles O11: of the three things a step can do, each leaves `pc` as R24 has it, and the fetch and the decoder tell which. -/
theorem stepLeavesPcAsTabled : Obligations.StepLeavesPcAsTabled := by
  intro s t h
  rcases step_cases s with ⟨hf, e⟩ | ⟨w, hf, hd, e⟩ | ⟨w, i, hf, hd, e⟩ <;> rw [h] at e
  · obtain rfl := Host.Outcome.next.inj e
    exact ⟨fun _ _ hf' => (nomatch hf.symm.trans hf'), fun _ hf' => (nomatch hf.symm.trans hf'), fun _ => rfl⟩
  · obtain rfl := Host.Outcome.next.inj e
    refine ⟨fun w' i' hf' hd' => ?_, fun _ _ _ => rfl, fun hf' => nomatch hf.symm.trans hf'⟩
    cases hf.symm.trans hf'
    exact nomatch hd.symm.trans hd'
  · refine ⟨fun w' i' hf' hd' => ?_, fun w' hf' hd' => ?_, fun hf' => nomatch hf.symm.trans hf'⟩ <;>
      cases hf.symm.trans hf'
    · cases hd.symm.trans hd'
      exact (exec_pc i s).of_next e.symm
    · exact nomatch hd.symm.trans hd'

end Sys2Proof.Machine
end

section
/-! SUPPORT. What no step observes (spec/10_state.md R26, R28): the sound timer, and the stack entries at index SP and above. -/

namespace Sys2Proof.Machine

/-- A state with other stack entries and another sound timer: the pieces that a step does not look at, but for the entry
a return pops. -/
def State.withStackSt (s : State) (k : Vector Word 16) (b : Byte) : State := { s with stack := k, st := b }

/-- What an outcome becomes when its state is changed by `f`. -/
def mapNext (f : State → State) : Outcome → Outcome
  | .next t => .next (f t)
  | .fault r => .fault r
  | .refused r => .refused r

section WithStackSt
variable (s : State) (k : Vector Word 16) (b : Byte)

@[simp] theorem withStackSt_getV (x : Fin 16) : (s.withStackSt k b).getV x = s.getV x := rfl
@[simp] theorem withStackSt_leastKey : (s.withStackSt k b).leastKey = s.leastKey := rfl

theorem skipIf_withStackSt (c : Bool) : (s.withStackSt k b).skipIf c = (s.skipIf c).withStackSt k b := by
  cases c <;> rfl

theorem setRegsFrom_withStackSt (j : Nat) (bs : List Byte) :
    setRegsFrom (s.withStackSt k b) j bs = (setRegsFrom s j bs).withStackSt k b := by
  induction bs generalizing s j with
  | nil => rfl
  | cons c cs ih =>
    simp only [setRegsFrom]
    split
    · exact ih (s.setV ⟨j, _⟩ c) (j + 1)
    · rfl

theorem storeAtI_withStackSt (bs : List Byte) :
    storeAtI bs (s.withStackSt k b) = mapNext (·.withStackSt k b) (storeAtI bs s) := by
  rw [storeAtI, storeAtI, apply_ite (mapNext _)]
  rfl

/-- An instruction but `CALL`, `RET` and `LD ST,Vx` neither reads nor writes the stack entries and the sound timer. -/
theorem exec_withStackSt {i : Instr} (hsp : (touchesOf i s).sp = false) (hst : (touchesOf i s).st = false) :
    exec i (s.withStackSt k b) = mapNext (·.withStackSt k b) (exec i s) := by
  cases i with
  | call _ | ret => exact nomatch hsp
  | ldStVx _ => exact nomatch hst
  | seImm _ _ | sneImm _ _ | seReg _ _ | sneReg _ _ => exact congrArg complete (skipIf_withStackSt s k b _)
  | skp x =>
    simp only [exec, execSkp, withStackSt_getV]
    cases keyIndex (s.getV x) with
    | none => rfl
    | some j => exact congrArg complete (skipIf_withStackSt s k b _)
  | sknp x =>
    simp only [exec, execSknp, withStackSt_getV]
    cases keyIndex (s.getV x) with
    | none => rfl
    | some j => exact congrArg complete (skipIf_withStackSt s k b _)
  | ldVxK x =>
    simp only [exec, execLdVxK, withStackSt_leastKey]
    cases s.leastKey with
    | none => rfl
    | some j => rfl
  | drw x y n =>
    simp only [exec, execDrw]
    rw [apply_ite (mapNext _)]
    rfl
  | ldB x | dumpRegs x => exact storeAtI_withStackSt s k b _
  | loadRegs x =>
    simp only [exec, execLoadRegs, setRegsFrom_withStackSt]
    rw [apply_ite (mapNext _)]
    rfl
  | _ => rfl
end WithStackSt

/-! ### The three instructions that look at them -/

/-- `CALL`, `RET` and `LD ST,Vx` are the instructions whose entry in R36 names the stack entries, SP or ST. -/
theorem instr_stackSt_cases (i : Instr) (s : State) :
    (∃ nnn, i = .call nnn) ∨ i = .ret ∨ (∃ x, i = .ldStVx x) ∨
    ((touchesOf i s).stack = false ∧ (touchesOf i s).sp = false ∧ (touchesOf i s).st = false) := by
  cases i with
  | call nnn => exact .inl ⟨nnn, rfl⟩
  | ret => exact .inr (.inl rfl)
  | ldStVx x => exact .inr (.inr (.inl ⟨x, rfl⟩))
  | _ => exact .inr (.inr (.inr ⟨rfl, rfl, rfl⟩))

section Calls
variable (s : State) (nnn : BitVec 12)

theorem execCall_of_lt (h : s.sp.val < 16) : execCall nnn s = .next { s with
    stack := s.stack.set s.sp.val s.pc h, sp := ⟨s.sp.val + 1, Nat.succ_lt_succ h⟩, pc := addrOf nnn,
    report := .none } := by
  rw [execCall, push_of_lt _ h]; rfl

theorem execCall_of_full (h : s.sp.val = 16) : execCall nnn s = .next { s with report := .stackOverflow } := by
  rw [execCall, push_of_full _ h]; rfl

theorem execRet_of_pos (h : 0 < s.sp.val) : execRet s = .next { s with
    sp := ⟨s.sp.val - 1, by omega⟩, pc := s.stack[s.sp.val - 1]'(by omega), report := .none } := by
  rw [execRet, pop_of_pos h]; rfl

theorem execRet_of_empty (h : s.sp.val = 0) : execRet s = .next { s with report := .stackUnderflow } := by
  rw [execRet, pop_of_empty h]; rfl
end Calls

/-! ### From instructions to steps -/

/-- Two states that fetch the same word step to related states, when the three things a step can do keep them related. -/
theorem step_related {R : State → State → Prop} {s s' : State} (hf : fetchWord s' = fetchWord s)
    (hoob : R { s with report := .fetchOob s.pc } { s' with report := .fetchOob s'.pc })
    (hunknown : ∀ w, R { s.advancePc with report := .unknownInstr w } { s'.advancePc with report := .unknownInstr w })
    (hexec : ∀ i, EndsIn (exec i s.advancePc) fun t => EndsIn (exec i s'.advancePc) (R t)) :
    EndsIn (step s) fun t => EndsIn (step s') (R t) := by
  unfold step
  rw [hf]
  cases fetchWord s with
  | none => exact ⟨_, rfl, _, rfl, hoob⟩
  | some w =>
    dsimp only
    cases decodeWord w with
    | none => exact ⟨_, rfl, _, rfl, hunknown w⟩
    | some i => exact hexec i

/-! ### The sound timer -/

/-- Two states that differ in ST at most. -/
def SameButSt (t u : State) : Prop := { u with st := t.st } = t

/-- With another sound timer an instruction answers the same state, but for that timer. -/
theorem exec_sameButSt (i : Instr) (s : State) (b : Byte) :
    EndsIn (exec i s) fun t => EndsIn (exec i { s with st := b }) (SameButSt t) := by
  rcases instr_stackSt_cases i s with ⟨nnn, rfl⟩ | rfl | ⟨x, rfl⟩ | ⟨hstack, hsp, hst⟩
  · rcases execCall_cases nnn s with ⟨h, e⟩ | ⟨h, e⟩
    · exact ⟨_, e, _, execCall_of_lt { s with st := b } nnn h, rfl⟩
    · exact ⟨_, e, _, execCall_of_full { s with st := b } nnn h, rfl⟩
  · rcases execRet_cases s with ⟨_, h, e⟩ | ⟨h, e⟩
    · exact ⟨_, e, _, execRet_of_pos { s with st := b } h, rfl⟩
    · exact ⟨_, e, _, execRet_of_empty { s with st := b } h, rfl⟩
  · exact ⟨_, rfl, _, rfl, rfl⟩
  · obtain ⟨t, e, hf⟩ := exec_frame i s
    have hkeep : t.stack = s.stack := Vector.ext fun j hj => hf.stack hstack ⟨j, hj⟩
    have e' := exec_withStackSt s s.stack b hsp hst
    rw [e] at e'
    exact ⟨t, e, _, e', by rw [← hkeep]; rfl⟩

/-- Settles O19: the fetch and the decoder do not see ST, and no instruction does. -/
theorem soundTimerIsNeverRead : Obligations.SoundTimerIsNeverRead := by
  intro s t b h
  have hsim := step_related (R := SameButSt) (s := s) (s' := { s with st := b }) rfl rfl (fun _ => rfl)
    fun i => exec_sameButSt i s.advancePc b
  exact hsim.of_next h

/-! ### The dead stack entries -/

theorem SameButDead.exists_stack {s s' : State} (hs : SameButDead s s') :
    ∃ k : Vector Word 16, s' = { s with stack := k } ∧ ∀ j : Fin 16, j.val < s.sp.val → k[j] = s.stack[j] :=
  ⟨s'.stack, hs⟩

/-- Instructions keep two states the same but for dead entries: a call writes the entry it makes live, and a return reads
a live one. -/
theorem exec_sameButDead (i : Instr) {s s' : State} (hs : SameButDead s s') :
    EndsIn (exec i s) fun t => EndsIn (exec i s') (SameButDead t) := by
  obtain ⟨k, rfl, hlive⟩ := hs.exists_stack
  rcases instr_stackSt_cases i s with ⟨nnn, rfl⟩ | rfl | ⟨x, rfl⟩ | ⟨hstack, hsp, hst⟩
  · rcases execCall_cases nnn s with ⟨h, e⟩ | ⟨h, e⟩
    · refine ⟨_, e, _, execCall_of_lt { s with stack := k } nnn h, rfl, fun j hj => ?_⟩
      have hj : j.val < s.sp.val + 1 := hj
      show (k.set _ _)[j.val] = (s.stack.set _ _)[j.val]
      by_cases htop : s.sp.val = j.val
      · simp [htop]
      · simpa [Vector.getElem_set, htop] using hlive j (by omega)
    · exact ⟨_, e, _, execCall_of_full { s with stack := k } nnn h, rfl, hlive⟩
  · rcases execRet_cases s with ⟨_, h, e⟩ | ⟨h, e⟩
    · have htop : k[s.sp.val - 1]'(by omega) = s.stack[s.sp.val - 1]'(by omega) :=
        hlive ⟨s.sp.val - 1, by omega⟩ (Nat.sub_lt h Nat.one_pos)
      refine ⟨_, e, _, execRet_of_pos { s with stack := k } h, ?_, fun j hj => hlive j ?_⟩
      · simp only [htop]
      · exact Nat.lt_of_lt_of_le hj (Nat.sub_le _ _)
    · exact ⟨_, e, _, execRet_of_empty { s with stack := k } h, rfl, hlive⟩
  · exact ⟨_, rfl, _, rfl, rfl, hlive⟩
  · obtain ⟨t, e, hf⟩ := exec_frame i s
    have e' := exec_withStackSt s k s.st hsp hst
    rw [e] at e'
    refine ⟨t, e, _, e', by rw [← hf.st hst]; rfl, fun j hj => ?_⟩
    exact (hlive j (hf.sp hsp ▸ hj)).trans (hf.stack hstack j).symm

/-- Settles O20: the fetch does not see the stack, and each thing a step can do keeps the states the same but for dead
entries. -/
theorem deadStackEntriesAreUnobservable : Obligations.DeadStackEntriesAreUnobservable := by
  intro s s' t hs h
  obtain ⟨k, rfl, hlive⟩ := hs.exists_stack
  have hsim := step_related (R := SameButDead) (s := s) (s' := { s with stack := k }) rfl ⟨rfl, hlive⟩
    (fun _ => ⟨rfl, hlive⟩) fun i => exec_sameButDead i ⟨rfl, hlive⟩
  exact hsim.of_next h

end Sys2Proof.Machine
end

section
/-! SUPPORT. The decoder against the encoder and the opcode map (spec/30_encoding.md R74, R75, R77): a word is rebuilt from
the fields its format reads, a row of the map fixes the fields its mask covers, and each group says which subcodes it
leaves unknown. -/

namespace Sys2Proof

/-! ### A word is made of its fields -/

section Rebuild
variable {w : Word} {g n : BitVec 4} {nn : Byte}

theorem wordA_eq_of_fields (hg : fieldG w = g) : wordA g (fieldNNN w) = w := by
  subst hg
  apply BitVec.eq_of_toNat_eq
  rw [toNat_wordA, toNat_fieldG, toNat_fieldNNN]; omega

theorem wordXB_eq_of_fields (hg : fieldG w = g) (hnn : fieldNN w = nn) : wordXB g (fieldX w) nn = w := by
  subst hg hnn
  apply BitVec.eq_of_toNat_eq
  rw [toNat_wordXB, toNat_fieldG, val_fieldX, toNat_fieldNN]; omega

theorem wordXYN_eq_of_fields (hg : fieldG w = g) (hn : fieldN w = n) : wordXYN g (fieldX w) (fieldY w) n = w := by
  subst hg hn
  apply BitVec.eq_of_toNat_eq
  rw [toNat_wordXYN, toNat_fieldG, val_fieldX, val_fieldY, toNat_fieldN]; omega
end Rebuild

/-! ### What the decoder answers is what the word encodes -/

/-- Instruction `i` fits in one word, and `w` is that word (R72, R73). -/
def IsWordOf (w : Word) (i : Instr) : Prop := encodeWord i = w ∧ i.wellFormed = true

section Inversion
variable {w : Word} {i : Instr}

theorem isWordOf_of_decodeGroup0 (h : decodeGroup0 w = some i) : IsWordOf w i := by
  unfold decodeGroup0 at h
  split_ifs at h with hcls hret <;> cases h
  · exact ⟨hcls.symm, rfl⟩
  · exact ⟨hret.symm, rfl⟩

theorem isWordOf_of_decodeGroup5 (hg : fieldG w = 0x5#4) (h : decodeGroup5 w = some i) : IsWordOf w i := by
  unfold decodeGroup5 at h
  split_ifs at h with hn
  cases h
  exact ⟨wordXYN_eq_of_fields hg hn, rfl⟩

theorem isWordOf_of_decodeGroup8 (hg : fieldG w = 0x8#4) (h : decodeGroup8 w = some i) : IsWordOf w i := by
  unfold decodeGroup8 at h
  split_ifs at h <;> cases h <;> exact ⟨wordXYN_eq_of_fields hg (by assumption), rfl⟩

theorem isWordOf_of_decodeGroup9 (hg : fieldG w = 0x9#4) (h : decodeGroup9 w = some i) : IsWordOf w i := by
  unfold decodeGroup9 at h
  split_ifs at h with hn
  cases h
  exact ⟨wordXYN_eq_of_fields hg hn, rfl⟩

theorem isWordOf_of_decodeGroupE (hg : fieldG w = 0xE#4) (h : decodeGroupE w = some i) : IsWordOf w i := by
  unfold decodeGroupE at h
  split_ifs at h <;> cases h <;> exact ⟨wordXB_eq_of_fields hg (by assumption), rfl⟩

theorem isWordOf_of_decodeGroupF (hg : fieldG w = 0xF#4) (h : decodeGroupF w = some i) : IsWordOf w i := by
  unfold decodeGroupF at h
  split_ifs at h <;> cases h <;> exact ⟨wordXB_eq_of_fields hg (by assumption), rfl⟩

/-- The sprite rows of a draw are a nibble, so the decoded draw is well formed. -/
theorem isWordOf_drw (hg : fieldG w = 0xD#4) : IsWordOf w (.drw (fieldX w) (fieldY w) (fieldN w).toNat) := by
  have hn : fieldN w = BitVec.ofNat 4 (fieldN w).toNat := by simp
  exact ⟨wordXYN_eq_of_fields hg hn, decide_eq_true (by have := (fieldN w).isLt; omega)⟩

/-- In every group the answer's fixed bits are the tested fields of the word, and its operands are the other fields. -/
theorem isWordOf_of_decodeWord (h : decodeWord w = some i) : IsWordOf w i := by
  unfold decodeWord at h
  split at h
  -- the groups with subcodes: 0, 5, 8, 9, E, F
  case h_1 => exact isWordOf_of_decodeGroup0 h
  case h_6 hg => exact isWordOf_of_decodeGroup5 (BitVec.eq_of_toNat_eq hg) h
  case h_9 hg => exact isWordOf_of_decodeGroup8 (BitVec.eq_of_toNat_eq hg) h
  case h_10 hg => exact isWordOf_of_decodeGroup9 (BitVec.eq_of_toNat_eq hg) h
  case h_15 hg => exact isWordOf_of_decodeGroupE (BitVec.eq_of_toNat_eq hg) h
  case h_16 hg => exact isWordOf_of_decodeGroupF (BitVec.eq_of_toNat_eq hg) h
  -- format A: 1, 2, A, B
  case h_2 hg | h_3 hg | h_11 hg | h_12 hg =>
    cases h
    exact ⟨wordA_eq_of_fields (BitVec.eq_of_toNat_eq hg), rfl⟩
  -- format XB: 3, 4, 6, 7, C
  case h_4 hg | h_5 hg | h_7 hg | h_8 hg | h_13 hg =>
    cases h
    exact ⟨wordXB_eq_of_fields (BitVec.eq_of_toNat_eq hg) rfl, rfl⟩
  -- format XYN: D
  case h_14 hg => cases h; exact isWordOf_drw (BitVec.eq_of_toNat_eq hg)
  case h_17 => cases h

end Inversion

/-- Settles O3: the decoder answers the instruction whose word it was given. -/
theorem encodeOfDecode : Obligations.EncodeOfDecode := fun _ _ => isWordOf_of_decodeWord

/-! ### The unknown words -/

section Unknown
variable (w : Word)

theorem decodeGroup0_eq_none_iff : decodeGroup0 w = none ↔ w ≠ 0x00E0#16 ∧ w ≠ 0x00EE#16 := by
  unfold decodeGroup0; split_ifs <;> simp [*]

theorem decodeGroup5_eq_none_iff : decodeGroup5 w = none ↔ fieldN w ≠ 0x0#4 := by
  unfold decodeGroup5; split_ifs <;> simp [*]

/-- The known subcodes of group 8 are tested one by one; the unknown ones are the rest of the sixteen. -/
theorem decodeGroup8_eq_none_iff :
    decodeGroup8 w = none ↔ fieldN w ∈ [0x8#4, 0x9#4, 0xA#4, 0xB#4, 0xC#4, 0xD#4, 0xF#4] := by
  have rest : ∀ n : BitVec 4, n ∈ [0x8#4, 0x9#4, 0xA#4, 0xB#4, 0xC#4, 0xD#4, 0xF#4] ↔
      n ∉ [0x0#4, 0x1#4, 0x2#4, 0x3#4, 0x4#4, 0x5#4, 0x6#4, 0x7#4, 0xE#4] := by decide
  rw [rest]
  unfold decodeGroup8; split_ifs <;> simp [*]

theorem decodeGroup9_eq_none_iff : decodeGroup9 w = none ↔ fieldN w ≠ 0x0#4 := by
  unfold decodeGroup9; split_ifs <;> simp [*]

theorem decodeGroupE_eq_none_iff : decodeGroupE w = none ↔ fieldNN w ∉ [0x9E#8, 0xA1#8] := by
  unfold decodeGroupE; split_ifs <;> simp [*]

theorem decodeGroupF_eq_none_iff : decodeGroupF w = none ↔
    fieldNN w ∉ [0x07#8, 0x0A#8, 0x15#8, 0x18#8, 0x1E#8, 0x29#8, 0x33#8, 0x55#8, 0x65#8] := by
  unfold decodeGroupF; split_ifs <;> simp [*]

/-- Six groups have subcodes and leave words unknown; the other ten know all of theirs. -/
theorem decodeWord_eq_none_iff : decodeWord w = none ↔
    (fieldG w = 0x0#4 ∧ decodeGroup0 w = none) ∨ (fieldG w = 0x5#4 ∧ decodeGroup5 w = none) ∨
    (fieldG w = 0x8#4 ∧ decodeGroup8 w = none) ∨ (fieldG w = 0x9#4 ∧ decodeGroup9 w = none) ∨
    (fieldG w = 0xE#4 ∧ decodeGroupE w = none) ∨ (fieldG w = 0xF#4 ∧ decodeGroupF w = none) := by
  simp only [BitVec.toNat_eq]
  unfold decodeWord
  split
  case h_17 =>
    -- there is no group above 15
    have := (fieldG w).isLt
    grind
  all_goals rename_i hg; simp [hg]
end Unknown

/-- Settles O5: each group's unknown words, group by group. -/
theorem unknownWordsByGroup : Obligations.UnknownWordsByGroup := by
  intro w
  rw [decodeWord_eq_none_iff, decodeGroup0_eq_none_iff, decodeGroup5_eq_none_iff, decodeGroup8_eq_none_iff,
    decodeGroup9_eq_none_iff, decodeGroupE_eq_none_iff, decodeGroupF_eq_none_iff]
  rfl

/-! ### The rows of the opcode map -/

/-- Word `w` has the fixed bits of row `r` (R75). -/
def Matches (w : Word) (r : OpcodeRow) : Prop := w &&& r.mask = r.pattern

section Rows
variable {w : Word} {r q : OpcodeRow}

/-- A row fixes the bits that its mask covers. -/
theorem Matches.extractLsb'_eq (h : Matches w r) {k n : Nat} (hm : r.mask.extractLsb' k n = BitVec.allOnes n) :
    w.extractLsb' k n = r.pattern.extractLsb' k n := by
  rw [← h, BitVec.extractLsb'_and, hm, BitVec.and_allOnes]

theorem Matches.fieldG_eq (h : Matches w r) (hm : fieldG r.mask = 0xF#4) : fieldG w = fieldG r.pattern :=
  h.extractLsb'_eq hm

theorem Matches.fieldN_eq (h : Matches w r) (hm : fieldN r.mask = 0xF#4) : fieldN w = fieldN r.pattern :=
  h.extractLsb'_eq hm

theorem Matches.fieldNN_eq (h : Matches w r) (hm : fieldNN r.mask = 0xFF#8) : fieldNN w = fieldNN r.pattern :=
  h.extractLsb'_eq hm

theorem Matches.pattern_and (h : Matches w r) (m : Word) : r.pattern &&& (r.mask &&& m) = w &&& (r.mask &&& m) := by
  rw [← h, BitVec.and_assoc, ← BitVec.and_assoc r.mask, BitVec.and_self]

/-- Two rows that one word matches agree in the bits that both fix. -/
theorem Matches.overlap (hr : Matches w r) (hq : Matches w q) :
    r.pattern &&& (r.mask &&& q.mask) = q.pattern &&& (r.mask &&& q.mask) := by
  rw [hr.pattern_and, BitVec.and_comm r.mask, hq.pattern_and]

/-- No word matches two rows: two different rows differ in a bit that both fix. -/
theorem Matches.unique (hr : Matches w r) (hq : Matches w q) (hrm : r ∈ opcodeRows) (hqm : q ∈ opcodeRows) : r = q := by
  by_contra hne
  have hsymm : Std.Symm fun r q : OpcodeRow => r.pattern &&& (r.mask &&& q.mask) ≠ q.pattern &&& (r.mask &&& q.mask) :=
    ⟨fun a b h => by rw [BitVec.and_comm b.mask]; exact h.symm⟩
  exact opcodeRows_disjoint.forall hrm hqm hne (hr.overlap hq)

/-- A word with the fixed bits of a row decodes: where the decoder looks, the word is the row's pattern. -/
theorem Matches.decodeWord_isSome {i : Instr} (h : Matches w (opcodeRow i)) : (decodeWord w).isSome = true := by
  cases i with
  | cls | ret =>
    obtain rfl : w = _ := (BitVec.and_allOnes (x := w)).symm.trans h
    rfl
  | jp _ | call _ | seImm _ _ | sneImm _ _ | ldImm _ _ | addImm _ _ | ldI _ | jpV0 _ | rnd _ _ | drw _ _ _ =>
    dsimp only [opcodeRow] at h
    rw [decodeWord, h.fieldG_eq rfl]; rfl
  | seReg _ _ | sneReg _ _ | ldReg _ _ | orReg _ _ | andReg _ _ | xorReg _ _ | addReg _ _ | subReg _ _ | shr _ _
  | subnReg _ _ | shl _ _ =>
    dsimp only [opcodeRow] at h
    rw [decodeWord, h.fieldG_eq rfl, decodeGroup5, decodeGroup8, decodeGroup9, h.fieldN_eq rfl]; rfl
  | skp _ | sknp _ | ldVxDt _ | ldVxK _ | ldDtVx _ | ldStVx _ | addI _ | ldF _ | ldB _ | dumpRegs _ | loadRegs _ =>
    dsimp only [opcodeRow] at h
    rw [decodeWord, h.fieldG_eq rfl, decodeGroupE, decodeGroupF, h.fieldNN_eq rfl]; rfl
end Rows

open Laws.EncodeMatchesRow in
/-- An instruction's word has the fixed bits of the instruction's row, in each of the formats of R72. -/
theorem encodeWord_matches (i : Instr) : Matches (encodeWord i) (opcodeRow i) := by
  cases i with
  | cls | ret => rfl
  | jp _ | call _ | ldI _ | jpV0 _ => exact wordA_row _ _
  | seImm _ _ | sneImm _ _ | ldImm _ _ | addImm _ _ | rnd _ _ => exact wordXB_row _ _ _
  | drw _ _ _ => exact wordXYN_row _ _ _ _
  | seReg _ _ | sneReg _ _ | ldReg _ _ | orReg _ _ | andReg _ _ | xorReg _ _ | addReg _ _ | subReg _ _ | shr _ _
  | subnReg _ _ | shl _ _ => exact wordXY_row _ _ _ _
  | skp _ | sknp _ | ldVxDt _ | ldVxK _ | ldDtVx _ | ldStVx _ | addI _ | ldF _ | ldB _ | dumpRegs _ | loadRegs _ =>
    exact wordXS_row _ _ _

/-- The word matches the row of the instruction it decodes to, as it is that instruction's word. -/
theorem matches_of_decodeWord {w : Word} {i : Instr} (h : decodeWord w = some i) : Matches w (opcodeRow i) := by
  obtain ⟨rfl, -⟩ := isWordOf_of_decodeWord h
  exact encodeWord_matches i

/-- Settles O4: a decoded word matches its instruction's row, a word that matches a row decodes, and two rows disagree in a
bit that both fix. -/
theorem knownWordsMatchOneRow : Obligations.KnownWordsMatchOneRow := by
  refine ⟨fun w => ⟨fun h => ?_, ?_⟩, fun _ _ => matches_of_decodeWord,
    fun _ _ _ hrm hqm hr hq => Matches.unique hr hq hrm hqm⟩
  · obtain ⟨i, hi⟩ := Option.isSome_iff_exists.1 h
    exact ⟨opcodeRow i, opcodeRow_mem i, matches_of_decodeWord hi⟩
  · rintro ⟨r, hr, h⟩
    obtain ⟨i, -, rfl⟩ := List.mem_map.1 hr
    exact Matches.decodeWord_isSome h

/-! ### The words the spec spells -/

/-- Settles O1: the decoder runs on the eight words. -/
theorem spelledWordsDecode : Obligations.SpelledWordsDecode :=
  ⟨rfl, rfl, rfl, rfl, rfl, rfl, rfl, rfl⟩

end Sys2Proof
end

section
/-! SUPPORT. The step cycle (spec/40_step_cycle.md R90 to R97): the unknown word, the totality of a step, and the report as
an output that no step reads. -/

namespace Sys2Proof.Machine

/-! ### An equation for each thing a step can do -/

section Equations
variable {s : State} {w : Word}

/-- The fetch fails (R91). -/
theorem step_of_fetch_none (hf : fetchWord s = none) : step s = .next { s with report := .fetchOob s.pc } := by
  rw [step, hf]; rfl

/-- The word is no instruction (R94). -/
theorem step_of_decode_none (hf : fetchWord s = some w) (hd : decodeWord w = none) :
    step s = .next { s with pc := s.pc + 2, report := .unknownInstr w } := by
  simp only [step, hf, hd]; rfl

/-- The word is an instruction, which runs after the advance (R93). -/
theorem step_of_decode_some {i : Instr} (hf : fetchWord s = some w) (hd : decodeWord w = some i) :
    step s = exec i s.advancePc := by
  simp only [step, hf, hd]
end Equations

/-! ### The unknown word -/

/-- Settles O9: the fetch answers the word that the two bytes form, and the decoder knows no such instruction. -/
theorem unknownWordIsReportedNoOp : Obligations.UnknownWordIsReportedNoOp := by
  intro s w hpc hw
  obtain ⟨hd, rfl⟩ := decode_unknown_iff.1 hw
  exact step_of_decode_none (fetchWord_of_le hpc) hd

/-! ### Totality -/

/-- A failed fetch and an unknown word are next states, and every instruction answers one. -/
theorem step_isNext (s : State) : ∃ t, step s = .next t := by
  rcases step_cases s with ⟨_, e⟩ | ⟨w, _, _, e⟩ | ⟨w, i, _, _, e⟩
  · exact ⟨_, e⟩
  · exact ⟨_, e⟩
  · obtain ⟨t, ht, _⟩ := exec_frame i s.advancePc
    exact ⟨t, e.trans ht⟩

/-- Settles O10: the step answers a next state, and as a function it answers no other. -/
theorem stepIsTotal : Obligations.StepIsTotal := by
  intro s
  obtain ⟨t, ht⟩ := step_isNext s
  exact ⟨t, ht, fun u hu => Host.Outcome.next.inj (hu.symm.trans ht)⟩

/-! ### The report is not read -/

/-- A state with another report. -/
def State.withReport (s : State) (r : Report) : State := { s with report := r }

section WithReport
variable (s : State) (r : Report)

@[simp] theorem withReport_getV (x : Fin 16) : (s.withReport r).getV x = s.getV x := rfl
@[simp] theorem withReport_leastKey : (s.withReport r).leastKey = s.leastKey := rfl

/-- Completion overwrites the report (R11). -/
@[simp] theorem complete_withReport : complete (s.withReport r) = complete s := rfl

theorem skipIf_withReport (c : Bool) : (s.withReport r).skipIf c = (s.skipIf c).withReport r := by
  cases c <;> rfl

theorem complete_skipIf_withReport (c : Bool) : complete ((s.withReport r).skipIf c) = complete (s.skipIf c) := by
  rw [skipIf_withReport, complete_withReport]

theorem setRegsFrom_withReport (k : Nat) (bs : List Byte) :
    setRegsFrom (s.withReport r) k bs = (setRegsFrom s k bs).withReport r := by
  induction bs generalizing s k with
  | nil => rfl
  | cons b bs ih =>
    simp only [setRegsFrom]
    split
    · exact ih (s.setV ⟨k, _⟩ b) (k + 1)
    · rfl

/-- No instruction reads the report, and each answers a report of its own. Where a meaning tests a range, the test and both
of its branches are the same for the two states as they stand. -/
theorem exec_withReport (i : Instr) : exec i (s.withReport r) = exec i s := by
  cases i with
  | seImm _ _ | sneImm _ _ | seReg _ _ | sneReg _ _ => exact complete_skipIf_withReport s r _
  | call nnn =>
    rcases execCall_cases nnn s with ⟨h, e⟩ | ⟨h, e⟩
    · exact (execCall_of_lt (s.withReport r) nnn h).trans e.symm
    · exact (execCall_of_full (s.withReport r) nnn h).trans e.symm
  | ret =>
    rcases execRet_cases s with ⟨_, h, e⟩ | ⟨h, e⟩
    · exact (execRet_of_pos (s.withReport r) h).trans e.symm
    · exact (execRet_of_empty (s.withReport r) h).trans e.symm
  | skp x =>
    simp only [exec, execSkp, withReport_getV]
    cases keyIndex (s.getV x) with
    | none => rfl
    | some k => exact complete_skipIf_withReport s r _
  | sknp x =>
    simp only [exec, execSknp, withReport_getV]
    cases keyIndex (s.getV x) with
    | none => rfl
    | some k => exact complete_skipIf_withReport s r _
  | ldVxK x =>
    simp only [exec, execLdVxK, withReport_leastKey]
    cases s.leastKey with
    | none => rfl
    | some k => rfl
  | loadRegs x =>
    simp only [exec, execLoadRegs, setRegsFrom_withReport]
    rfl
  | _ => rfl

/-- Another report does not change what the fetch reads, so the step takes the same one of its three cases, and each
overwrites the report. -/
theorem step_withReport : step (s.withReport r) = step s := by
  rcases step_cases s with ⟨hf, e⟩ | ⟨w, hf, hd, e⟩ | ⟨w, i, hf, hd, e⟩
  · exact (step_of_fetch_none (s := s.withReport r) hf).trans e.symm
  · exact (step_of_decode_none (s := s.withReport r) hf hd).trans e.symm
  · calc step (s.withReport r)
      _ = exec i (s.advancePc.withReport r) := step_of_decode_some hf hd
      _ = exec i s.advancePc := exec_withReport s.advancePc r i
      _ = step s := e.symm
end WithReport

/-- Settles O18: neither the fetch nor any instruction sees the report. -/
theorem reportIsNeverRead : Obligations.ReportIsNeverRead := step_withReport

end Sys2Proof.Machine
end

section
/-! SUPPORT. Control transfer without the stack (spec/41_flow.md R101, R103, R104): the jump and the skips against an
immediate. -/

namespace Sys2Proof.Machine

/-! ### The words of the jump and the immediate skips -/

theorem decodeWord_jp (nnn : BitVec 12) : decodeWord (wordA 0x1 nnn) = some (.jp nnn) := by
  simp [decodeWord]

theorem decodeWord_seImm (x : Fin 16) (nn : Byte) : decodeWord (wordXB 0x3 x nn) = some (.seImm x nn) := by
  simp [decodeWord]

theorem decodeWord_sneImm (x : Fin 16) (nn : Byte) : decodeWord (wordXB 0x4 x nn) = some (.sneImm x nn) := by
  simp [decodeWord]

/-! ### The jump -/

/-- Settles O24: the jump completes with `pc` set to the zero-extended operand. -/
theorem jumpAssignsPc : Obligations.JumpAssignsPc :=
  fun nnn s => ⟨decodeWord_jp nnn, _, rfl, rfl, rfl, frame_pc s _⟩

/-! ### The skips -/

/-- A skip on condition `c` completes with `pc` advanced by 2 when `c` is true, and changes nothing else. -/
theorem complete_skipIf_endsIn (s : State) (c : Bool) : EndsIn (complete (s.skipIf c)) fun t =>
    t.pc = (if c then s.pc + 2 else s.pc) ∧ t.report = .none ∧ Frame { pc := true } s t :=
  ⟨_, rfl, skipIf_pc s c, rfl, frame_skipIf s c⟩

/-- Settles O29: SE and SNE are the skips on the test `V[x] = nn` and on its negation. -/
theorem immediateSkips : Obligations.ImmediateSkips := by
  intro x nn s
  refine ⟨decodeWord_seImm x nn, decodeWord_sneImm x nn, ?se, ?sne⟩
  case se =>
    have h := complete_skipIf_endsIn s (s.getV x == nn)
    simp only [beq_iff_eq] at h
    exact h
  case sne =>
    have h := complete_skipIf_endsIn s (s.getV x != nn)
    simp only [bne_iff_ne, ne_eq, ite_not] at h
    exact h

end Sys2Proof.Machine
end

section
/-! SUPPORT. The immediate loads and the immediate add (spec/42_immediate.md R110 to R112). -/

namespace Sys2Proof.Machine

/-! ### The words -/

theorem decodeWord_ldImm (x : Fin 16) (nn : Byte) : decodeWord (wordXB 0x6 x nn) = some (.ldImm x nn) := by
  simp [decodeWord]

theorem decodeWord_addImm (x : Fin 16) (nn : Byte) : decodeWord (wordXB 0x7 x nn) = some (.addImm x nn) := by
  simp [decodeWord]

theorem decodeWord_ldI (nnn : BitVec 12) : decodeWord (wordA 0xA nnn) = some (.ldI nnn) := by
  simp [decodeWord]

/-! ### The written values as numbers -/

theorem toNat_addResult (a b : Byte) : (addResult a b).toNat = (a.toNat + b.toNat) % 256 :=
  BitVec.toNat_ofNat _ _

theorem toNat_addrOf (nnn : BitVec 12) : (addrOf nnn).toNat = nnn.toNat :=
  BitVec.toNat_setWidth_of_le (by decide)

/-! ### The meanings -/

/-- A register write that completes leaves its byte in its register, and changes nothing else. -/
theorem complete_setV_endsIn (s : State) (x : Fin 16) (b : Byte) : EndsIn (complete (s.setV x b)) fun t =>
    t.getV x = b ∧ t.report = .none ∧ Frame { regs := [x] } s t :=
  ⟨_, rfl, getV_setV_self s x b, rfl, frame_setV s x b⟩

/-- Settles O31: both are register writes, of nn and of the wrapped sum. -/
theorem immediateLoadAndAdd : Obligations.ImmediateLoadAndAdd := by
  intro x nn s
  refine ⟨decodeWord_ldImm x nn, decodeWord_addImm x nn, ?ld, ?add⟩
  case ld => exact complete_setV_endsIn s x nn
  case add =>
    obtain ⟨t, ht, hx, hrest⟩ := complete_setV_endsIn s x (addResult (s.getV x) nn)
    exact ⟨t, ht, hx ▸ toNat_addResult _ _, hrest⟩

/-- Settles O32: I takes the operand zero-extended, which keeps its value. -/
theorem indexSet : Obligations.IndexSet :=
  fun nnn s => ⟨decodeWord_ldI nnn, _, rfl, toNat_addrOf nnn, rfl, frame_i s _⟩

end Sys2Proof.Machine
end

section
/-! SUPPORT. The ALU group (spec/43_alu.md R121, R125 to R129): each member but the assignment writes a result and then a
flag, so each is one shared write together with the values of its result and of its flag as numbers. -/

namespace Sys2Proof.Machine

/-! ### The words -/

section Words
variable (x y : Fin 16)

theorem decodeWord_ldReg : decodeWord (wordXYN 0x8 x y 0x0) = some (.ldReg x y) := by
  simp [decodeWord, decodeGroup8]

theorem decodeWord_addReg : decodeWord (wordXYN 0x8 x y 0x4) = some (.addReg x y) := by
  simp [decodeWord, decodeGroup8]

theorem decodeWord_subReg : decodeWord (wordXYN 0x8 x y 0x5) = some (.subReg x y) := by
  simp [decodeWord, decodeGroup8]

theorem decodeWord_shr : decodeWord (wordXYN 0x8 x y 0x6) = some (.shr x y) := by
  simp [decodeWord, decodeGroup8]

theorem decodeWord_subnReg : decodeWord (wordXYN 0x8 x y 0x7) = some (.subnReg x y) := by
  simp [decodeWord, decodeGroup8]

theorem decodeWord_shl : decodeWord (wordXYN 0x8 x y 0xE) = some (.shl x y) := by
  simp [decodeWord, decodeGroup8]

end Words

/-! ### The results as numbers -/

theorem toNat_subResult (a b : Byte) : ((subResult a b).toNat : Int) = ((a.toNat : Int) - (b.toNat : Int)) % 256 := by
  have hn : 0 ≤ ((a.toNat : Int) - (b.toNat : Int)) % 256 := Int.emod_nonneg _ (by decide)
  rw [subResult, BitVec.toNat_ofInt]
  exact Int.toNat_of_nonneg hn

theorem toNat_shrResult (a : Byte) : (shrResult a).toNat = a.toNat / 2 := by
  rw [shrResult, BitVec.toNat_ushiftRight, Nat.shiftRight_one]

theorem toNat_shlResult (a : Byte) : (shlResult a).toNat = 2 * a.toNat % 256 := by
  rw [shlResult, BitVec.toNat_shiftLeft, Nat.shiftLeft_eq, Nat.mul_comm]

/-! ### The flags as numbers -/

/-- The flag of a test is 1 when the test holds. -/
theorem toNat_flagByte_decide (p : Prop) [Decidable p] : (flagByte (decide p)).toNat = if p then 1 else 0 := by
  simp only [toNat_flagByte, decide_eq_true_eq]

/-- The flag of a bit is that bit as a digit. -/
theorem toNat_flagByte_getLsbD (a : Byte) (k : Nat) : (flagByte (a.getLsbD k)).toNat = a.toNat / 2 ^ k % 2 := by
  rw [toNat_flagByte, ← Nat.toNat_testBit, Bool.toNat, cond_eq_ite, BitVec.getLsbD]

theorem toNat_flagByte_shrOut (a : Byte) : (flagByte (shrOut a)).toNat = a.toNat % 2 := by
  rw [shrOut, toNat_flagByte_getLsbD, pow_zero, Nat.div_one]

/-- Above bit 7 there is none, so old bit 7 is the whole quotient. -/
theorem toNat_flagByte_shlOut (a : Byte) : (flagByte (shlOut a)).toNat = a.toNat / 128 := by
  have hlt : a.toNat / 128 < 2 := Nat.div_lt_of_lt_mul a.isLt
  rw [shlOut, toNat_flagByte_getLsbD]
  exact Nat.mod_eq_of_lt hlt

/-! ### The meanings -/

/-- A result with a flag that completes: what is known of the result, `P`, holds of its register unless that is VF, VF
holds the flag, as the number `n`, and nothing else has changed (R22, R120). -/
theorem complete_writeResultFlag_endsIn (s : State) (x : Fin 16) {r : Byte} {c : Bool} {n : Nat} (P : Byte → Prop)
    (hr : P r) (hc : (flagByte c).toNat = n) : EndsIn (complete (s.writeResultFlag x r c)) fun t =>
      (x ≠ 15 → P (t.getV x)) ∧ (t.getV 15).toNat = n ∧ t.report = .none ∧ Frame { regs := [x, 15] } s t := by
  refine ⟨_, rfl, fun hx => ?_, ?_, rfl, frame_writeResultFlag s x r c⟩
  · have hv : (s.writeResultFlag x r c).getV x = r := by rw [getV_writeResultFlag, if_neg hx, if_pos rfl]
    exact hv.symm ▸ hr
  · exact (congrArg BitVec.toNat (getV_vf_writeResultFlag s x r c)).trans hc

/-- A subtraction `a - b` into V[x]: the difference modulo 256, and 1 in VF when there is no borrow (R126, R128). -/
theorem complete_sub_endsIn (s : State) (x : Fin 16) (a b : Byte) :
    EndsIn (complete (s.writeResultFlag x (subResult a b) (noBorrow a b))) fun t =>
      (x ≠ 15 → ((t.getV x).toNat : Int) = ((a.toNat : Int) - (b.toNat : Int)) % 256) ∧
      (t.getV 15).toNat = (if a.toNat ≥ b.toNat then 1 else 0) ∧ t.report = .none ∧ Frame { regs := [x, 15] } s t :=
  complete_writeResultFlag_endsIn s x (fun r => (r.toNat : Int) = ((a.toNat : Int) - (b.toNat : Int)) % 256)
    (toNat_subResult a b) (toNat_flagByte_decide _)

/-- Settles O34: the assignment is a register write. -/
theorem registerAssign : Obligations.RegisterAssign :=
  fun x y s => ⟨decodeWord_ldReg x y, complete_setV_endsIn s x (s.getV y)⟩

/-- Settles O36: the sum is written with the test of the exact sum as its flag. -/
theorem addWritesSumThenCarry : Obligations.AddWritesSumThenCarry :=
  fun x y s => ⟨decodeWord_addReg x y,
    complete_writeResultFlag_endsIn s x (fun r => r.toNat = ((s.getV x).toNat + (s.getV y).toNat) % 256)
      (toNat_addResult _ _) (toNat_flagByte_decide _)⟩

/-- Settles O37: SUBN is the subtraction with the operands exchanged. -/
theorem subtractsWriteDifferenceThenNoBorrow : Obligations.SubtractsWriteDifferenceThenNoBorrow :=
  fun x y s => ⟨decodeWord_subReg x y, decodeWord_subnReg x y,
    complete_sub_endsIn s x (s.getV x) (s.getV y), complete_sub_endsIn s x (s.getV y) (s.getV x)⟩

/-- Settles O38: a shift halves or doubles, and its flag is the low bit or the bit of weight 128. -/
theorem shiftsWriteResultThenBitOut : Obligations.ShiftsWriteResultThenBitOut := by
  intro x y s
  refine ⟨decodeWord_shr x y, decodeWord_shl x y, ?shr, ?shl⟩
  case shr =>
    exact complete_writeResultFlag_endsIn s x (fun r => r.toNat = (s.getV x).toNat / 2)
      (toNat_shrResult _) (toNat_flagByte_shrOut _)
  case shl =>
    exact complete_writeResultFlag_endsIn s x (fun r => r.toNat = 2 * (s.getV x).toNat % 256)
      (toNat_shlResult _) (toNat_flagByte_shlOut _)

end Sys2Proof.Machine
end

section
/-! SUPPORT. The display (spec/44_display.md R131): the clear. -/

namespace Sys2Proof.Machine

/-- `CLS` completes with the blank display, and changes nothing else. -/
theorem exec_cls_endsIn (s : State) : EndsIn (exec .cls s) fun t =>
    t.fb = blankFb ∧ t.report = .none ∧ Frame { display := true } s t :=
  ⟨_, rfl, rfl, rfl, frame_fb s blankFb⟩

/-- Settles O39: every pixel of the blank display is false. -/
theorem clearSetsEveryPixelFalse : Obligations.ClearSetsEveryPixelFalse := by
  refine ⟨rfl, fun s => ?_⟩
  obtain ⟨t, ht, hfb, hrest⟩ := exec_cls_endsIn s
  have hblank (x : Fin 64) (y : Fin 32) : pixel t.fb x y = false := hfb ▸ pixel_blankFb x y
  exact ⟨t, ht, hblank, hrest⟩

end Sys2Proof.Machine
end

section
/-! SUPPORT. The timer moves and the wait for a key (spec/45_keypad_timers.md R143 to R146). -/

namespace Sys2Proof.Machine

/-! ### The words -/

section Words
variable (x : Fin 16)

theorem decodeWord_ldVxDt : decodeWord (wordXB 0xF x 0x07) = some (.ldVxDt x) := by
  simp [decodeWord, decodeGroupF]

theorem decodeWord_ldVxK : decodeWord (wordXB 0xF x 0x0A) = some (.ldVxK x) := by
  simp [decodeWord, decodeGroupF]

theorem decodeWord_ldDtVx : decodeWord (wordXB 0xF x 0x15) = some (.ldDtVx x) := by
  simp [decodeWord, decodeGroupF]

theorem decodeWord_ldStVx : decodeWord (wordXB 0xF x 0x18) = some (.ldStVx x) := by
  simp [decodeWord, decodeGroupF]

end Words

/-! ### The timer moves -/

/-- A delay timer write that completes leaves its byte in DT, and changes nothing else. -/
theorem complete_setDt_endsIn (s : State) (b : Byte) : EndsIn (complete (s.setDt b)) fun t =>
    t.dt = b ∧ t.report = .none ∧ Frame { dt := true } s t :=
  ⟨_, rfl, setDt_dt s b, rfl, frame_dt s b⟩

/-- A sound timer write that completes leaves its byte in ST, and changes nothing else. -/
theorem complete_setSt_endsIn (s : State) (b : Byte) : EndsIn (complete (s.setSt b)) fun t =>
    t.st = b ∧ t.report = .none ∧ Frame { st := true } s t :=
  ⟨_, rfl, setSt_st s b, rfl, frame_st s b⟩

/-- Settles O43: the three moves are a register write of DT and a write of V[x] to each timer. -/
theorem timerMoves : Obligations.TimerMoves := by
  intro x s
  refine ⟨decodeWord_ldVxDt x, decodeWord_ldDtVx x, decodeWord_ldStVx x, ?fromDt, ?toDt, ?toSt⟩
  case fromDt => exact complete_setV_endsIn s x s.dt
  case toDt => exact complete_setDt_endsIn s (s.getV x)
  case toSt => exact complete_setSt_endsIn s (s.getV x)

/-! ### The wait for a key -/

section WaitKey
variable {s : State} (x : Fin 16)

theorem execLdVxK_of_some {k : Fin 16} (h : s.leastKey = some k) :
    execLdVxK x s = complete (s.setV x (BitVec.ofNat 8 k.val)) := by
  rw [execLdVxK, h]

theorem execLdVxK_of_none (h : s.leastKey = none) : execLdVxK x s = complete s.rewindPc := by
  rw [execLdVxK, h]

end WaitKey

/-- A key index as a byte keeps its value. -/
theorem toNat_ofNat_key (k : Fin 16) : (BitVec.ofNat 8 k.val).toNat = k.val :=
  (BitVec.toNat_ofNat _ _).trans (Nat.mod_eq_of_lt (k.isLt.trans (by decide)))

/-- Settles O44: the latch found by the scan is the least true one, and its index fits the register; where the scan finds
none, the meaning is the rewind. -/
theorem waitKeyTakesLeastLatch : Obligations.WaitKeyTakesLeastLatch := by
  intro x s
  refine ⟨decodeWord_ldVxK x, fun k hk hlt => ?latched, fun hnone => ?waiting⟩
  case latched =>
    have hexec : exec (.ldVxK x) s = complete (s.setV x (BitVec.ofNat 8 k.val)) :=
      execLdVxK_of_some x (leastKey_eq_some hk hlt)
    obtain ⟨t, ht, hx, hrest⟩ := complete_setV_endsIn s x (BitVec.ofNat 8 k.val)
    exact ⟨t, hexec.trans ht, hx ▸ toNat_ofNat_key k, hrest⟩
  case waiting => exact execLdVxK_of_none x (leastKey_eq_none hnone)

end Sys2Proof.Machine
end

section
/-! SUPPORT. When the conditions arise (spec/60_exceptions.md R162, R164, R165), and the `tick` event (R175). -/

namespace Sys2Proof.Machine

/-- An instruction whose condition arises reports it, and writes nothing else. -/
theorem exec_of_conditionOf_eq {i : Instr} {s : State} {c : Report} (hc : conditionOf i s = c) (hne : c ≠ .none) :
    exec i s = .next { s with report := c } := by
  rcases exec_completesOrRaises i s with ⟨hnone, _⟩ | ⟨_, e⟩
  · exact absurd (hc.symm.trans hnone) hne
  · rwa [hc] at e

/-- An access through I that passes address 4095 changes nothing but the report. -/
theorem exec_of_addrCondition {i : Instr} {s : State} {count : Nat} (hi : conditionOf i s = addrCondition count s)
    (hc : count ≠ 0) (h : s.i.toNat + count > 4096) : exec i s = .next { s with report := .addrOob s.i } :=
  exec_of_conditionOf_eq (hi.trans (addrCondition_of_gt hc h)) Report.noConfusion

/-- Settles O13: each hypothesis is the instruction's own condition, for 3 bytes (`LD B`), x + 1 bytes (the register
transfers), n bytes (`DRW`), and the two ends of the stack. -/
theorem conditionsAreNoOps : Obligations.ConditionsAreNoOps := by
  intro s x y n nnn
  refine ⟨fun hn h => ?drw, fun h => ?ldB, fun h => ?dumpRegs, fun h => ?loadRegs, fun h => ?call, fun h => ?ret⟩
  case drw => exact exec_of_addrCondition (count := n) rfl (by omega) (by omega)
  case ldB => exact exec_of_addrCondition (count := 3) rfl (by omega) (by omega)
  case dumpRegs => exact exec_of_addrCondition (count := x.val + 1) rfl (by omega) (by omega)
  case loadRegs => exact exec_of_addrCondition (count := x.val + 1) rfl (by omega) (by omega)
  case call => exact execCall_of_full s nnn h
  case ret => exact execRet_of_empty s h

/-- A timer's decrement is truncating subtraction: 0 stays 0. -/
theorem toNat_countDown (b : Byte) : (countDown b).toNat = b.toNat - 1 := by
  unfold countDown
  split
  case isTrue hzero => subst hzero; rfl
  case isFalse hpos =>
    have hle : 1 ≤ b := by bv_omega
    exact BitVec.toNat_sub_of_le hle

/-- Settles O46: the two timers count down apart, and `tick` writes no other field. -/
theorem tickCountsDownBothTimers : Obligations.TickCountsDownBothTimers :=
  fun s => ⟨tick s, rfl, toNat_countDown s.dt, toNat_countDown s.st, rfl⟩

end Sys2Proof.Machine
end

section
/-! SUPPORT. The `load` event (spec/70_reset_and_hazards.md R195): an accepted image. -/

namespace Sys2Proof.Machine

/-- A load of an accepted image stores its bytes from `PROGRAM_BASE`, and reports `NONE`. -/
theorem load_of_accepted {image : List Byte} (s : State) (h : 1 ≤ image.length ∧ image.length ≤ 3584) :
    load image s = { s with mem := writeBytes s.mem Config.programBase image, report := .none } := by
  rw [load, if_pos ((imageWellFormed_iff image).mpr h)]

/-- Settles O54: the load is one run of byte writes, read back inside the image and left alone outside it. -/
theorem loadWritesImage : Obligations.LoadWritesImage := by
  intro image s hpos hcap
  have hload : applyEvent (.load image) s =
      .next { s with mem := writeBytes s.mem Config.programBase image, report := .none } :=
    congrArg Host.Outcome.next (load_of_accepted s ⟨hpos, hcap⟩)
  refine ⟨_, hload, fun k hk => ?inside, fun a ha => ?outside, rfl, rfl⟩
  case inside => rw [memRead_writeBytes_inside s.mem Config.programBase hk, List.getElem?_eq_getElem hk]
  case outside => exact memRead_writeBytes_outside s.mem ha

end Sys2Proof.Machine
end

section
/-! SUPPORT. The decoder gives back every encoded instruction (spec/30_encoding.md R70, R72, R74). -/

namespace Sys2Proof

/-- A row count up to 15 survives the nibble it is encoded in (R73). -/
theorem toNat_nibble_of_le {n : Nat} (h : n ≤ 15) : (BitVec.ofNat 4 n).toNat = n :=
  (BitVec.toNat_ofNat n 4).trans (Nat.mod_eq_of_lt (by omega))

/-- The word of a well-formed instruction decodes to that instruction: its group and its subcode select the instruction's
case, and the other fields are its operands. -/
theorem decodeWord_encodeWord {i : Instr} (h : i.wellFormed = true) : decodeWord (encodeWord i) = some i := by
  cases i with
  | cls | ret => rfl
  | jp _ | call _ | ldI _ | jpV0 _ | seImm _ _ | sneImm _ _ | ldImm _ _ | addImm _ _ | rnd _ _ =>
    simp [encodeWord, decodeWord]
  | seReg _ _ => simp [encodeWord, decodeWord, decodeGroup5]
  | ldReg _ _ | orReg _ _ | andReg _ _ | xorReg _ _ | addReg _ _ | subReg _ _ | shr _ _ | subnReg _ _ | shl _ _ =>
    simp [encodeWord, decodeWord, decodeGroup8]
  | sneReg _ _ => simp [encodeWord, decodeWord, decodeGroup9]
  | drw _ _ n =>
    have hn : n ≤ 15 := of_decide_eq_true h
    simp only [encodeWord, decodeWord, fieldG_wordXYN, fieldX_wordXYN, fieldY_wordXYN, fieldN_wordXYN,
      toNat_nibble_of_le hn]
    rfl
  | skp _ | sknp _ => simp [encodeWord, decodeWord, decodeGroupE]
  | ldVxDt _ | ldVxK _ | ldDtVx _ | ldStVx _ | addI _ | ldF _ | ldB _ | dumpRegs _ | loadRegs _ =>
    simp [encodeWord, decodeWord, decodeGroupF]

/-- Settles O2: the two bytes form the instruction's word again, and that word decodes to the instruction. -/
theorem decodeOfEncode : Obligations.DecodeOfEncode := by
  intro i rest h
  have hword : decodeWord (wordOfBytes (hiByte (encodeWord i)) (loByte (encodeWord i))) = some i := by
    rw [wordOfBytes_hi_lo, decodeWord_encodeWord h]
  exact decode_ok_iff.2 hword

/-- With n ≠ 0 the words of groups 5 and 9 are unknown (R77). -/
theorem decodeWord_subcode_ne_zero (x y : Fin 16) {n : BitVec 4} (h : n ≠ 0) :
    decodeWord (wordXYN 0x5 x y n) = none ∧ decodeWord (wordXYN 0x9 x y n) = none := by
  have hn (g : BitVec 4) : fieldN (wordXYN g x y n) ≠ 0x0 := (fieldN_wordXYN g x y n).symm ▸ h
  exact ⟨(unknownWordsByGroup _).2 (.inr (.inl ⟨fieldG_wordXYN .., hn 0x5⟩)),
    (unknownWordsByGroup _).2 (.inr (.inr (.inr (.inl ⟨fieldG_wordXYN .., hn 0x9⟩))))⟩

end Sys2Proof
end

section
/-! SUPPORT. The known word, the failed fetch, the fixed points of a step, and the report of each instruction
(spec/40_step_cycle.md R90, R91; spec/60_exceptions.md R170; spec/70_reset_and_hazards.md R198). -/

namespace Sys2Proof.Machine

/-- Settles O12: an instruction completes when its condition does not arise, and reports it when it does. -/
theorem reportIsTheOneCondition : Obligations.ReportIsTheOneCondition := by
  intro i s t h
  rcases exec_completesOrRaises i s with ⟨hnone, u, e, hu⟩ | ⟨_, e⟩
  · obtain rfl := Host.Outcome.next.inj (h.symm.trans e)
    exact hu.trans hnone.symm
  · obtain rfl := Host.Outcome.next.inj (h.symm.trans e)
    rfl

/-! ### The word at `pc` -/

/-- Settles O6: the fetch forms the word of the two bytes, which is the word the decoder was given. -/
theorem stepRunsDecodedInstruction : Obligations.StepRunsDecodedInstruction :=
  fun _ _ hpc hdec => step_of_decode_some (fetchWord_of_le hpc) (decode_ok_iff.1 hdec)

/-- Where a word can be fetched at `pc`, placing one is a store of its two bytes there, high byte first. -/
theorem withFetchWord_of_le {s : State} (hpc : s.pc.toNat + 1 ≤ 4095) (w : Word) :
    s.withFetchWord 16 w.toNat = { s with mem := writeBytes s.mem s.pc.toNat [hiByte w, loByte w] } := by
  have hw : BitVec.ofNat 16 (w.toNat % 2 ^ 16) = w := by
    rw [Nat.mod_eq_of_lt w.isLt, BitVec.ofNat_toNat, BitVec.setWidth_eq]
  have hlt : s.pc.toNat + 1 < Config.memSize := Nat.lt_of_le_of_lt hpc (by decide)
  rw [State.withFetchWord, hw, placeWord, if_pos hlt]

/-- The two bytes of a stored word stand at its address and the next, high byte first (R54). -/
theorem memRead_writeBytes_word (m : Memory) (base : Nat) (w : Word) :
    memRead (writeBytes m base [hiByte w, loByte w]) base = hiByte w ∧
    memRead (writeBytes m base [hiByte w, loByte w]) (base + 1) = loByte w :=
  ⟨memRead_writeBytes_inside (bs := [hiByte w, loByte w]) m base (k := 0) Nat.zero_lt_two,
    memRead_writeBytes_inside (bs := [hiByte w, loByte w]) m base (k := 1) Nat.one_lt_two⟩

/-- The fetch after placing a word reads it back. -/
theorem fetchWord_withFetchWord {s : State} (hpc : s.pc.toNat + 1 ≤ 4095) (w : Word) :
    fetchWord (s.withFetchWord 16 w.toNat) = some w := by
  obtain ⟨hhi, hlo⟩ := memRead_writeBytes_word s.mem s.pc.toNat w
  have hpc' : (s.withFetchWord 16 w.toNat).pc.toNat + 1 ≤ 4095 := by rwa [withFetchWord_of_le hpc]
  rw [fetchWord_of_le hpc', withFetchWord_of_le hpc]
  dsimp only
  rw [hhi, hlo, wordOfBytes_hi_lo]

/-- Settles O7: the state of the step is the one with the word placed; its memory differs at the two stored bytes only. -/
theorem placedWordIsRun : Obligations.PlacedWordIsRun := by
  intro s w i hpc hdec
  obtain ⟨hhi, hlo⟩ := memRead_writeBytes_word s.mem s.pc.toNat w
  have hstep : step (s.withFetchWord 16 w.toNat) = exec i (s.withFetchWord 16 w.toNat).advancePc :=
    step_of_decode_some (fetchWord_withFetchWord hpc w) hdec
  refine ⟨s.withFetchWord 16 w.toNat, ?_⟩
  rw [hstep, withFetchWord_of_le hpc]
  refine ⟨rfl, rfl, hhi, hlo, fun a ha ha' => ?_⟩
  have houtside : ¬(s.pc.toNat ≤ a ∧ a < s.pc.toNat + 2) := by omega
  exact memRead_writeBytes_outside s.mem houtside

/-- Settles O8: the failed fetch leaves `pc`, so the next fetch fails with the same report. -/
theorem failedFetchChangesNothing : Obligations.FailedFetchChangesNothing :=
  fun s h => ⟨{ s with report := .fetchOob s.pc }, step_of_fetch_none (fetchWord_of_gt h), rfl,
    step_of_fetch_none (fetchWord_of_gt h)⟩

/-! ### The fixed points -/

/-- Settles O45: the rewind takes back the fetch's advance. -/
theorem waitingStepChangesNothing : Obligations.WaitingStepChangesNothing := by
  rintro s ⟨⟨x, hf⟩, hnone⟩
  obtain ⟨hdec, -, hwait⟩ := waitKeyTakesLeastLatch x s.advancePc
  have hback : s.pc + 2 - 2 = s.pc := BitVec.add_sub_cancel s.pc 2
  calc step s
    _ = exec (.ldVxK x) s.advancePc := step_of_decode_some hf hdec
    _ = .next { s with pc := s.pc + 2 - 2, report := .none } := hwait hnone
    _ = .next { s with report := .none } := by rw [hback]

/-- Settles O57: the jump assigns the `pc` from which it was fetched. -/
theorem selfJumpIsFixedPoint : Obligations.SelfJumpIsFixedPoint := by
  rintro s ⟨a, hpc, hf⟩
  calc step s
    _ = exec (.jp a) s.advancePc := step_of_decode_some hf (decodeWord_jp a)
    _ = .next { s with pc := a.setWidth 16, report := .none } := rfl
    _ = .next { s with report := .none } := by rw [← hpc]

end Sys2Proof.Machine
end

section
/-! SUPPORT. The events beside `step` (spec/70_reset_and_hazards.md R190 to R197; spec/45_keypad_timers.md R140): reset, the
key events, a rejected load, a launch, and schedules of them all. -/

namespace Sys2Proof.Machine

/-! ### Reset -/

/-- The reset contents at an address are its glyph byte, or zero where there is none (R34). -/
theorem memDefault_eq_getD (a : Nat) : memDefault a = (Config.glyphs[a]?).getD 0 :=
  if_pos (Nat.zero_le a)

theorem glyphs_length : Config.glyphs.length = 80 := rfl

theorem getElem?_glyphs_of_lt {a : Nat} (h : a < 80) : Config.glyphs[a]? = some (memDefault a) := by
  have hlt : a < Config.glyphs.length := glyphs_length ▸ h
  rw [memDefault_eq_getD, List.getElem?_eq_getElem hlt, Option.getD_some]

theorem memDefault_of_ge {a : Nat} (h : 80 ≤ a) : memDefault a = 0 := by
  have hge : Config.glyphs.length ≤ a := glyphs_length ▸ h
  rw [memDefault_eq_getD, List.getElem?_eq_none hge, Option.getD_none]

/-- The state after reset holds the tabled values, whatever the count of drawn bytes. -/
theorem resetValues_of_draws (n : Nat) : ResetValues { State.reset with draws := n } where
  regs := fun x => Vector.getElem_replicate x.isLt
  index := rfl
  pc := rfl
  stack := fun j => Vector.getElem_replicate j.isLt
  sp := rfl
  dt := rfl
  st := rfl
  display := pixel_blankFb
  keys := fun k => Vector.getElem_replicate k.isLt
  glyphs := ⟨glyphs_length, fun _ h => getElem?_glyphs_of_lt h⟩
  zeros := fun _ h => memDefault_of_ge h
  report := rfl

/-- Memory after reset lists no byte. -/
theorem resetEvent_inv (s : State) : (resetEvent s).inv := ⟨List.Pairwise.nil, nofun⟩

/-- Settles O23: the event and `State.reset` leave the same values, and differ in `draws` at most. -/
theorem resetLeavesTabledValues : Obligations.ResetLeavesTabledValues :=
  ⟨fun s => ⟨resetEvent s, rfl, resetValues_of_draws s.draws, rfl, resetEvent_inv s⟩,
    resetValues_of_draws 0, resetEvent_inv State.reset⟩

/-! ### The key events -/

/-- Reading a latch after a latch write (R140). -/
theorem getElem_set_key (v : Vector Bool 16) (k j : Fin 16) (b : Bool) :
    (v.set k b)[j] = if j = k then b else v[j] := by
  simp only [Fin.getElem_fin, Vector.getElem_set, Fin.ext_iff, eq_comm]

/-- Settles O47: each event is one latch write. -/
theorem keyEventsWriteOneLatch : Obligations.KeyEventsWriteOneLatch :=
  fun k s => ⟨⟨keyDown k s, rfl, rfl, fun j => getElem_set_key s.keys k j true⟩,
    ⟨keyUp k s, rfl, rfl, fun j => getElem_set_key s.keys k j false⟩⟩

/-! ### Load and launch -/

/-- An image that is empty or oversize is rejected with no byte written (R196). -/
theorem load_of_rejected {image : List Byte} (s : State) (h : ¬(1 ≤ image.length ∧ image.length ≤ 3584)) :
    load image s = { s with report := .loadRejected image.length } := by
  rw [load, if_neg (mt (imageWellFormed_iff image).1 h)]

/-- Settles O55: `load` answers the report alone, and a launch refuses on it. -/
theorem rejectedLoadWritesNothing : Obligations.RejectedLoadWritesNothing := by
  intro image s h
  have hrejected (t : State) : load image t = { t with report := .loadRejected image.length } :=
    load_of_rejected t (by omega)
  refine ⟨congrArg Host.Outcome.next (hrejected s), ?_⟩
  rw [launch, hrejected]

/-- A launch of an accepted image is a reset followed by the load (R197). -/
theorem launch_of_accepted {image : List Byte} (s : State) (h : 1 ≤ image.length ∧ image.length ≤ 3584) :
    launch image s = .next (load image (resetEvent s)) := by
  rw [launch, load_of_accepted _ h]

/-- Settles O56: the load writes the image into the reset state and nothing else. -/
theorem launchLeavesBootState : Obligations.LaunchLeavesBootState := by
  intro image s hpos hcap
  obtain ⟨t, ht, hinside, houtside, -, hkeep⟩ := loadWritesImage image (resetEvent s) hpos hcap
  obtain rfl := Host.Outcome.next.inj ht
  exact ⟨_, launch_of_accepted s ⟨hpos, hcap⟩, hkeep, congrArg State.pc hkeep, hinside, houtside⟩

/-! ### Schedules -/

/-- A load stores at addresses of the space only, or stores nothing. -/
theorem load_keeps_inv (image : List Byte) {s : State} (hs : s.inv) : (load image s).inv := by
  by_cases h : 1 ≤ image.length ∧ image.length ≤ 3584
  · have hfits : Config.programBase + image.length ≤ Config.memSize := Nat.add_le_add_left h.2 0x200
    rw [load_of_accepted s h]
    exact writeBytes_wf hs hfits
  · rwa [load_of_rejected s h]

/-- Every event answers a next state and keeps the canonical form of memory. -/
theorem applyEvent_keeps_inv (e : Event) {s : State} (hs : s.inv) : EndsIn (applyEvent e s) State.inv := by
  cases e with
  | reset => exact ⟨_, rfl, resetEvent_inv s⟩
  | load image => exact ⟨_, rfl, load_keeps_inv image hs⟩
  | step =>
    obtain ⟨t, ht⟩ := step_isNext s
    exact ⟨t, ht, stepKeepsMemoryCanonical s t hs ht⟩
  | tick | keyDown _ | keyUp _ | snapshot => exact ⟨_, rfl, hs⟩

/-- A schedule that begins with an event continues from the state the event answers. -/
theorem runEvents_cons_of_next {e : Event} {s t : State} (h : applyEvent e s = .next t) (es : List Event) :
    runEvents (e :: es) s = runEvents es t := by
  rw [runEvents, h]

/-- Settles O22, by induction on the schedule: each event completes and keeps the form. -/
theorem schedulesKeepMemoryCanonical : Obligations.SchedulesKeepMemoryCanonical := by
  intro es
  induction es with
  | nil => exact fun s hs => ⟨s, rfl, hs⟩
  | cons e es ih =>
    intro s hs
    obtain ⟨t, ht, hinv⟩ := applyEvent_keeps_inv e hs
    rw [runEvents_cons_of_next ht]
    exact ih t hinv

end Sys2Proof.Machine
end

section
/-! SUPPORT. Calls and returns, the offset jump and the register skips (spec/41_flow.md R100, R102, R105 to R107), and the
keypad skips (spec/45_keypad_timers.md R141, R142). -/

namespace Sys2Proof.Machine

/-! ### Calls and returns -/

/-- Settles O26: the push writes entry SP and leaves the others; with sixteen entries in use there is no push. -/
theorem callPushesReturnAddress : Obligations.CallPushesReturnAddress := by
  intro nnn s
  refine ⟨decodeWord_encodeWord (i := .call nnn) rfl, fun hlt => ?_, execCall_of_full s nnn⟩
  have htop : (s.stack.set s.sp.val s.pc hlt)[s.sp.val]? = some s.pc := Vector.getElem?_set_self hlt
  have hother (j : Fin 16) (hj : j.val ≠ s.sp.val) : (s.stack.set s.sp.val s.pc hlt)[j] = s.stack[j] :=
    Vector.getElem_set_ne hlt j.isLt hj.symm
  exact ⟨_, execCall_of_lt s nnn hlt, htop, rfl, rfl, rfl, hother, frame_call s hlt _ _⟩

/-- Settles O27: the pop reads entry SP - 1 and writes no entry; with no entry in use there is no pop. -/
theorem returnPopsPc : Obligations.ReturnPopsPc := by
  refine ⟨rfl, fun s => ⟨fun hpos => ?_, execRet_of_empty s⟩⟩
  have htop : s.sp.val - 1 < 16 := by omega
  exact ⟨_, execRet_of_pos s hpos, Vector.getElem?_eq_getElem htop, rfl, rfl, fun _ => rfl, frame_ret s _ _⟩

/-- Settles O28: the entry that the call wrote is the one that the return reads. -/
theorem callReturnRoundTrip : Obligations.CallReturnRoundTrip := by
  intro nnn s t u hlt hcall hsp hstack
  obtain ⟨t', hcall', hentry, hcount, -⟩ := (callPushesReturnAddress nnn s).2.1 hlt
  obtain rfl := Host.Outcome.next.inj (hcall'.symm.trans hcall)
  have hcount_u : u.sp.val = s.sp.val + 1 := hsp ▸ hcount
  obtain ⟨r, hret, hpopped, hsp_r, hnone, -⟩ := (returnPopsPc.2 u).1 (by omega)
  rw [hcount_u, Nat.add_sub_cancel] at hpopped hsp_r
  rw [hstack, hentry] at hpopped
  exact ⟨r, hret, (Option.some.inj hpopped).symm, Fin.ext hsp_r, hnone⟩

/-! ### The offset jump -/

/-- The largest target, 0xFFF + 0xFF, is below 65536. -/
theorem toNat_offsetTarget (s : State) (nnn : BitVec 12) :
    (offsetTarget s nnn).toNat = nnn.toNat + (s.getV 0).toNat := by
  have hnnn := nnn.isLt
  have hv := (s.getV 0).isLt
  rw [offsetTarget_eq, BitVec.toNat_ofNat, Nat.mod_eq_of_lt (by omega)]

/-- Settles O25: the sum of a 12-bit and an 8-bit value does not wrap. -/
theorem offsetJumpAddsV0 : Obligations.OffsetJumpAddsV0 :=
  fun nnn s => ⟨decodeWord_encodeWord (i := .jpV0 nnn) rfl, _, rfl, toNat_offsetTarget s nnn, rfl, frame_pc s _⟩

/-! ### The skips -/

/-- A skip on the negation of condition `c` completes with `pc` advanced by 2 when `c` is false. -/
theorem complete_skipIf_not_endsIn (s : State) (c : Bool) : EndsIn (complete (s.skipIf (!c))) fun t =>
    t.pc = (if c then s.pc else s.pc + 2) ∧ t.report = .none ∧ Frame { pc := true } s t := by
  have h := complete_skipIf_endsIn s (!c)
  cases c <;> exact h

/-- Settles O30: SE and SNE are the skips on the test `V[x] = V[y]` and on its negation. -/
theorem registerSkips : Obligations.RegisterSkips := by
  intro x y s
  refine ⟨decodeWord_encodeWord (i := .seReg x y) rfl, decodeWord_encodeWord (i := .sneReg x y) rfl,
    fun n hn => decodeWord_subcode_ne_zero x y hn, ?se, ?sne⟩
  case se =>
    have h := complete_skipIf_endsIn s (s.getV x == s.getV y)
    simp only [beq_iff_eq] at h
    exact h
  case sne =>
    have h := complete_skipIf_not_endsIn s (s.getV x == s.getV y)
    simp only [beq_iff_eq] at h
    exact h

/-- A byte names the latch of its value (R141). -/
theorem keyIndex_eq_some {b : Byte} {k : Fin 16} (h : b.toNat = k.val) : keyIndex b = some k := by
  rw [keyIndex_of_le (by omega)]
  exact congrArg some (Fin.ext h)

/-- Settles O42: SKP and SKNP are the skips on the named latch and on its negation; above 15 the condition arises. -/
theorem keypadSkips : Obligations.KeypadSkips := by
  intro x s
  refine ⟨decodeWord_encodeWord (i := .skp x) rfl, decodeWord_encodeWord (i := .sknp x) rfl,
    fun k hk => ⟨?skp, ?sknp⟩, fun hgt => ⟨?skpRaises, ?sknpRaises⟩⟩
  case skp =>
    have hexec : exec (.skp x) s = complete (s.skipIf (s.key k)) := by rw [exec, execSkp, keyIndex_eq_some hk]
    rw [hexec]
    exact complete_skipIf_endsIn s (s.key k)
  case sknp =>
    have hexec : exec (.sknp x) s = complete (s.skipIf (!s.key k)) := by rw [exec, execSknp, keyIndex_eq_some hk]
    rw [hexec]
    exact complete_skipIf_not_endsIn s (s.key k)
  case skpRaises => exact exec_of_conditionOf_eq (keyCondition_of_gt hgt) Report.noConfusion
  case sknpRaises => exact exec_of_conditionOf_eq (keyCondition_of_gt hgt) Report.noConfusion

end Sys2Proof.Machine
end

section
/-! SUPPORT. The random byte (spec/42_immediate.md R113), the logic group (spec/43_alu.md R122 to R124) and the index
arithmetic (spec/46_index_memory.md R150, R151). -/

namespace Sys2Proof.Machine

/-- Settles O33: a bit that is 0 in the mask is 0 in the masked byte, whatever the byte. -/
theorem randomIsMaskedFreeByte : Obligations.RandomIsMaskedFreeByte := by
  intro x nn s
  have hx := getV_setV_self s x (Config.rndByte s.draws &&& nn)
  refine ⟨decodeWord_encodeWord (i := .rnd x nn) rfl, _, rfl, hx, rfl, fun k hk => ?_, rfl, frame_rnd s x _ _⟩
  calc BitVec.getLsbD _ k
    _ = (Config.rndByte s.draws &&& nn).getLsbD k := congrArg (BitVec.getLsbD · k) hx
    _ = false := by rw [BitVec.getLsbD_and, hk, Bool.and_false]

/-- A register write that completes: what is known of each bit of its byte holds of the register's bits. -/
theorem complete_setV_bits_endsIn (s : State) (x : Fin 16) {b : Byte} {f : Nat → Bool} (hb : ∀ k, b.getLsbD k = f k) :
    EndsIn (complete (s.setV x b)) fun t =>
      (∀ k, (t.getV x).getLsbD k = f k) ∧ t.report = .none ∧ Frame { regs := [x] } s t := by
  obtain ⟨t, ht, hx, hrest⟩ := complete_setV_endsIn s x b
  exact ⟨t, ht, fun k => hx ▸ hb k, hrest⟩

/-- Settles O35: each is a register write of the bitwise combination. -/
theorem logicGroup : Obligations.LogicGroup := by
  intro x y s
  refine ⟨decodeWord_encodeWord (i := .orReg x y) rfl, decodeWord_encodeWord (i := .andReg x y) rfl,
    decodeWord_encodeWord (i := .xorReg x y) rfl, ?or, ?and, ?xor⟩
  case or => exact complete_setV_bits_endsIn s x fun _ => BitVec.getLsbD_or
  case and => exact complete_setV_bits_endsIn s x fun _ => BitVec.getLsbD_and
  case xor => exact complete_setV_bits_endsIn s x fun _ => BitVec.getLsbD_xor

/-- An index write that completes leaves its address in I, and changes nothing else. -/
theorem complete_setI_endsIn (s : State) (a : Word) {n : Nat} (ha : a.toNat = n) : EndsIn (complete (s.setI a)) fun t =>
    t.i.toNat = n ∧ t.report = .none ∧ Frame { index := true } s t :=
  ⟨_, rfl, ha, rfl, frame_i s a⟩

theorem toNat_wideOf (b : Byte) : (wideOf b).toNat = b.toNat :=
  BitVec.toNat_setWidth_of_le (by decide)

/-- The largest glyph address, 255 * 5, is below 65536. -/
theorem toNat_glyphAddr (b : Byte) : (glyphAddr b).toNat = b.toNat * 5 := by
  have hb := b.isLt
  rw [glyphAddr, BitVec.toNat_ofNat, Config.glyphBase, Config.glyphHeight, Nat.zero_add, Nat.mod_eq_of_lt (by omega)]

/-- Settles O48: both are index writes, of the wrapped sum and of the product, which does not wrap. -/
theorem indexArithmetic : Obligations.IndexArithmetic := by
  intro x s
  have hsum : (s.i + wideOf (s.getV x)).toNat = (s.i.toNat + (s.getV x).toNat) % 65536 := by
    rw [BitVec.toNat_add, toNat_wideOf]
  exact ⟨decodeWord_encodeWord (i := .addI x) rfl, decodeWord_encodeWord (i := .ldF x) rfl,
    complete_setI_endsIn s _ hsum, complete_setI_endsIn s _ (toNat_glyphAddr (s.getV x))⟩

end Sys2Proof.Machine
end

section
/-! SUPPORT. Stores and loads through I in range (spec/46_index_memory.md R152 to R154), and the fetch of stored bytes
(spec/20_memory.md R64). -/

namespace Sys2Proof.Machine

/-- A store through I that stays in the space completes, its bytes stand from I upward, and nothing else has changed. -/
theorem storeAtI_endsIn (s : State) {bs : List Byte} {n : Nat} (hl : bs.length = n) (hr : s.i.toNat + n ≤ 4096) :
    EndsIn (storeAtI bs s) fun t => (∀ k (hk : k < bs.length), memRead t.mem (s.i.toNat + k) = bs[k]) ∧
      t.report = .none ∧ Frame { memBase := s.i.toNat, memCount := n } s t := by
  have hok : rangeOk s.i.toNat bs.length = true := (rangeOk_iff _ _).2 (.inr (hl ▸ hr))
  rcases storeAtI_cases bs s with ⟨_, e⟩ | ⟨hno, _⟩
  · exact ⟨_, e, fun k hk => memRead_writeBytes_inside s.mem s.i.toNat hk, rfl, frame_store s hl⟩
  · exact nomatch hok.symm.trans hno

/-! ### The decimal digits -/

/-- A number below 256 survives being held in a byte. -/
theorem toNat_digit {n : Nat} (h : n < 256) : (BitVec.ofNat 8 n).toNat = n :=
  (BitVec.toNat_ofNat n 8).trans (Nat.mod_eq_of_lt h)

/-- Settles O49: the three bytes of the store are the digits, each below 256. -/
theorem decimalStore : Obligations.DecimalStore := by
  refine fun x s => ⟨decodeWord_encodeWord (i := .ldB x) rfl, fun hr => ?_⟩
  have hv := (s.getV x).isLt
  obtain ⟨t, ht, hbytes, hrest⟩ := storeAtI_endsIn s (decimalDigits_length (s.getV x)) (by omega)
  refine ⟨t, ht, ?hundreds, ?tens, ?units, hrest⟩
  case hundreds => exact (congrArg BitVec.toNat (hbytes 0 (by simp))).trans (toNat_digit (by omega))
  case tens => exact (congrArg BitVec.toNat (hbytes 1 (by simp))).trans (toNat_digit (by omega))
  case units => exact (congrArg BitVec.toNat (hbytes 2 (by simp))).trans (toNat_digit (by omega))

/-! ### The register dump and load -/

/-- Settles O50: byte k of the store is V[k]. -/
theorem registerDump : Obligations.RegisterDump := by
  refine fun x s => ⟨decodeWord_encodeWord (i := .dumpRegs x) rfl, fun hr => ?_⟩
  obtain ⟨t, ht, hbytes, hrest⟩ := storeAtI_endsIn s (regsUpTo_length s x) (by omega)
  refine ⟨t, ht, fun k hk => ?_, hrest⟩
  have hlt : k.val < (regsUpTo s x).length := regsUpTo_length s x ▸ Nat.lt_succ_of_le hk
  exact (hbytes k.val hlt).trans (regsUpTo_getElem s x hlt)

/-- A register that a load names takes its byte. -/
theorem getV_setRegsFrom_of_lt (s : State) {bs : List Byte} {k : Fin 16} (hk : k.val < bs.length) :
    (setRegsFrom s 0 bs).getV k = bs[k.val] := by
  rw [getV_setRegsFrom, if_pos (Nat.zero_le _), Nat.sub_zero, List.getElem?_eq_getElem hk, Option.getD_some]

/-- A load through I that stays in the space completes. -/
theorem execLoadRegs_of_le (x : Fin 16) {s : State} (hr : s.i.toNat + x.val ≤ 4095) : execLoadRegs x s =
    .next { setRegsFrom s 0 (readBytes s.mem s.i.toNat (x.val + 1)) with report := .none } := by
  rcases execLoadRegs_cases x s with ⟨_, e⟩ | ⟨hgt, _⟩
  · exact e
  · omega

/-- Settles O51: register k takes byte k of the bytes read; the registers above x are outside the load's frame. -/
theorem registerLoad : Obligations.RegisterLoad := by
  refine fun x s => ⟨decodeWord_encodeWord (i := .loadRegs x) rfl, fun hr => ?_⟩
  have hframe := frame_setRegsFrom s x (readBytes_length s.mem s.i.toNat (x.val + 1))
  refine ⟨_, execLoadRegs_of_le x hr, fun k hk => ?loaded, rfl, fun r hxr => hframe.regs r (by simpa using hxr), hframe⟩
  case loaded =>
    have hlt : k.val < (readBytes s.mem s.i.toNat (x.val + 1)).length := readBytes_length .. ▸ Nat.lt_succ_of_le hk
    exact (getV_setRegsFrom_of_lt s hlt).trans (readBytes_getElem _ _ _ _ hlt)

/-- What an in-range dump leaves at I and above. -/
theorem memRead_of_dump {x : Fin 16} {s t : State} (hr : s.i.toNat + x.val ≤ 4095) (h : exec (.dumpRegs x) s = .next t)
    {k : Fin 16} (hk : k ≤ x) : memRead t.mem (s.i.toNat + k.val) = s.getV k := by
  obtain ⟨t', ht', hbytes, -⟩ := (registerDump x s).2 hr
  obtain rfl := Host.Outcome.next.inj (ht'.symm.trans h)
  exact hbytes k hk

/-- Settles O52: the load reads at I + k the byte that the dump stored there. -/
theorem dumpLoadRoundTrip : Obligations.DumpLoadRoundTrip := by
  intro x s t u hr hdump hmem hi
  obtain ⟨r, hload, hregs, -⟩ := (registerLoad x u).2 (hi ▸ hr)
  refine ⟨r, hload, fun k hk => ?_⟩
  calc r.getV k
    _ = memRead u.mem (u.i.toNat + k.val) := hregs k hk
    _ = memRead t.mem (s.i.toNat + k.val) := by rw [hmem, hi]
    _ = s.getV k := memRead_of_dump hr hdump hk

/-- Settles O53: the fetch at I reads the bytes of V0 and V1, high byte first. -/
theorem storeIsSeenByNextFetch : Obligations.StoreIsSeenByNextFetch := by
  intro x s t hx hr hdump
  have hhi : memRead t.mem s.i.toNat = s.getV 0 := memRead_of_dump hr hdump (Fin.zero_le x)
  have hlo : memRead t.mem (s.i.toNat + 1) = s.getV 1 := memRead_of_dump hr hdump (k := 1) hx
  have hpc : s.i.toNat + 1 ≤ 4095 := by omega
  have hfetch : fetchWord { t with pc := s.i } = some (wordOfBytes (s.getV 0) (s.getV 1)) := by
    rw [← hhi, ← hlo]
    exact fetchWord_of_le (s := { t with pc := s.i }) hpc
  exact ⟨_, hfetch, toNat_wordOfBytes _ _⟩

end Sys2Proof.Machine
end

section
/-! SUPPORT. The sprite draw (spec/44_display.md R132): what one draw does to the display, and that a second one at the same
place takes it back. -/

namespace Sys2Proof.Machine

/-- The sprite that `DRW Vx,Vy,n` draws from state `s` has a set bit on pixel (px, py). -/
def SpriteCovers (x y : Fin 16) (n : Nat) (s : State) (px : Fin 64) (py : Fin 32) : Prop :=
  spriteBit s.mem s.i.toNat n (s.getV x).toNat (s.getV y).toNat px py

/-- State `t` is state `s` with the pixels of `P` toggled, and VF is 1 exactly when one of them was set (R132). -/
structure Toggles (P : Fin 64 → Fin 32 → Prop) (s t : State) : Prop where
  on : ∀ px py, P px py → pixel t.fb px py = !pixel s.fb px py
  off : ∀ px py, ¬P px py → pixel t.fb px py = pixel s.fb px py
  flag : t.getV 15 = 0x01 ∨ t.getV 15 = 0x00
  collision : t.getV 15 = 0x01 ↔ ∃ px py, P px py ∧ pixel s.fb px py = true
  report : t.report = .none
  frame : Frame { regs := [15], display := true } s t

/-- The sprite's points are the ones that the scan toggles. -/
theorem spriteCovers_iff_mem (x y : Fin 16) (n : Nat) (s : State) (px : Fin 64) (py : Fin 32) :
    SpriteCovers x y n s px py ↔
      (px, py) ∈ spritePoints (s.getV x).toNat (s.getV y).toNat (readBytes s.mem s.i.toNat n) :=
  spriteBit_iff_mem _ _ _ _ _ _ _

/-- The scan of at most 32 rows toggles the covered pixels, each once, and notes whether one of them was set. -/
theorem scanOf_spec (x y : Fin 16) {n : Nat} (s : State) (hn : n ≤ 32) :
    (∀ px py, SpriteCovers x y n s px py → pixel (scanOf x y n s).1 px py = !pixel s.fb px py) ∧
    (∀ px py, ¬SpriteCovers x y n s px py → pixel (scanOf x y n s).1 px py = pixel s.fb px py) ∧
    ((scanOf x y n s).2 = true ↔ ∃ px py, SpriteCovers x y n s px py ∧ pixel s.fb px py = true) := by
  have hnodup : (spritePoints (s.getV x).toNat (s.getV y).toNat (readBytes s.mem s.i.toNat n)).Nodup :=
    spritePoints_nodup _ _ ((readBytes_length ..).trans_le hn)
  obtain ⟨hpixel, hcollision⟩ := foldl_togglePoint hnodup (s.fb, false)
  simp only [spriteCovers_iff_mem, scanOf, drawRows_eq_foldl]
  refine ⟨fun px py hc => ?on, fun px py hc => ?off, ?collision⟩
  case on => rw [hpixel, if_pos hc]
  case off => rw [hpixel, if_neg hc]
  case collision => simpa only [Bool.false_eq_true, false_or, Prod.exists] using hcollision

theorem flagByte_eq_one_iff (c : Bool) : flagByte c = 0x01 ↔ c = true := by cases c <;> decide

/-- A draw in range completes, and toggles the pixels its sprite covers. -/
theorem exec_drw_endsIn (x y : Fin 16) {n : Nat} {s : State} (hn : n ≤ 15) (hr : n = 0 ∨ s.i.toNat + n - 1 ≤ 4095) :
    EndsIn (exec (.drw x y n) s) (Toggles (SpriteCovers x y n s) s) := by
  obtain ⟨hon, hoff, hcollision⟩ := scanOf_spec x y s (n := n) (by omega)
  rcases execDrw_cases x y n s with ⟨_, e⟩ | ⟨hne, hgt, _⟩
  · have hvf := getV_setV_self s vf (flagByte (scanOf x y n s).2)
    refine ⟨_, e, { on := hon, off := hoff, flag := ?_, collision := ?_, report := rfl, frame := frame_draw s _ _ }⟩
    · exact (flagByte_cases _).symm.imp hvf.trans hvf.trans
    · exact (Eq.congr_left hvf).trans ((flagByte_eq_one_iff _).trans hcollision)
  · omega

/-- Settles O40: the draw toggles exactly what its sprite covers. -/
theorem drawTogglesSpritePixels : Obligations.DrawTogglesSpritePixels := by
  intro x y n s hn hr
  obtain ⟨t, ht, h⟩ := exec_drw_endsIn x y hn hr
  exact ⟨decodeWord_encodeWord (i := .drw x y n) (decide_eq_true hn), t, ht,
    fun px py => ⟨h.on px py, h.off px py⟩, h.flag, h.collision, h.report, h.frame⟩

/-! ### Drawing twice -/

/-- A draw moves neither its own sprite nor, with x and y not VF, the place of it. -/
theorem SpriteCovers.of_frame {x y : Fin 16} {n : Nat} {s t : State} (hx : x ≠ 15) (hy : y ≠ 15)
    (h : Frame { regs := [15], display := true } s t) : SpriteCovers x y n t = SpriteCovers x y n s := by
  have hvx : t.getV x = s.getV x := h.regs x (by simpa using hx)
  have hvy : t.getV y = s.getV y := h.regs y (by simpa using hy)
  have hi : t.i = s.i := h.index rfl
  have hmem (a : Nat) : memRead t.mem a = memRead s.mem a := h.mem a fun ha => Nat.not_lt_zero a ha.2
  funext px py
  simp only [SpriteCovers, spriteBit, hvx, hvy, hi, hmem]

section Twice
variable {P : Fin 64 → Fin 32 → Prop} {s t u : State} (hst : Toggles P s t) (htu : Toggles P t u)
include hst htu

/-- Pixels toggled twice are back where they were. -/
theorem Toggles.twice_pixel (px : Fin 64) (py : Fin 32) : pixel u.fb px py = pixel s.fb px py := by
  by_cases hc : P px py
  · rw [htu.on px py hc, hst.on px py hc, Bool.not_not]
  · rw [htu.off px py hc, hst.off px py hc]

/-- The second toggle meets a set pixel exactly where the first one set it. -/
theorem Toggles.twice_collision :
    u.getV 15 = 0x01 ↔ ∃ px py, pixel s.fb px py = false ∧ pixel t.fb px py = true := by
  have hset (px : Fin 64) (py : Fin 32) :
      P px py ∧ pixel t.fb px py = true ↔ pixel s.fb px py = false ∧ pixel t.fb px py = true := by
    by_cases hc : P px py
    · simp [hc, hst.on px py hc]
    · simp [hc, hst.off px py hc]
  simp only [htu.collision, hset]
end Twice

/-- Settles O41: the second draw toggles the same pixels, as the first leaves the sprite and its place. -/
theorem drawTwiceRestoresDisplay : Obligations.DrawTwiceRestoresDisplay := by
  intro x y n s t hn hr hx hy h
  have hst : Toggles (SpriteCovers x y n s) s t := (exec_drw_endsIn x y hn hr).of_next h
  have hi : t.i = s.i := hst.frame.index rfl
  obtain ⟨u, hu, htu⟩ := exec_drw_endsIn x y (s := t) hn (hi ▸ hr)
  rw [SpriteCovers.of_frame hx hy hst.frame] at htu
  exact ⟨u, hu, hst.twice_pixel htu, hst.twice_collision htu⟩

end Sys2Proof.Machine
end
